-- ==== Sys2Proof/Word.lean ====
section
/-! DEFINITION. The word types of the engine (R9, R10, R11): a bit (a line level, a sample), a byte and a
command word. -/

namespace Sys2Proof

/-- `Bit` of R10 and the line level of R11: `true` is 1 (high: driven-high or released), `false` is 0
(driven-low). -/
abbrev Bit := Bool

/-- `Byte` of R10: an 8-bit unsigned value. -/
abbrev Byte := BitVec 8

/-- `Word32` of R10: one command word, bit 0 the least significant. -/
abbrev Word32 := BitVec 32

end Sys2Proof
end

