-- ==== Sys2Proof/Config.lean ====
section
/-! DEFINITION. What a model instance fixes (R8, R25), the vocabulary of the line port that the environment
sees (R23, R32), and the one free value of the model: the environment's answer to a sample (R35). -/

namespace Sys2Proof

/-- The two bus lines (R9, R32). -/
inductive Line where
  | clock
  | data
  deriving DecidableEq, Repr

/-- The events of the trace (R23); `t` is the model time when the event was recorded. -/
inductive Event where
  /-- The engine drove `line` to level `v` at time `t`. -/
  | drive (line : Line) (v : Bit) (t : Nat)
  /-- The engine sampled DATA and got `b` at time `t`. -/
  | sample (b : Bit) (t : Nat)
  /-- The engine began a delay of `n` microseconds at time `t`. -/
  | wait (n : Nat) (t : Nat)
  deriving DecidableEq, Repr

/-- The implementation parameters of R8, as plain data: the arguments a model instance takes. No command
reads them as operands or writes them (R25). The oracle `O` of R8 is a function, so its part that a run may
fix in advance stands here as the list `script` and the rest is `Config.oracle` (log entry 4). -/
structure Params where
  /-- `P_HALF_US`: the half period in microseconds. -/
  halfUs : Nat
  /-- `P_SETTLE_COUNT`: the settle delay in settle units. -/
  settleCount : Nat
  /-- `P_SETTLE_UNIT_US`: the settle unit in microseconds (OPEN in the spec). -/
  settleUnitUs : Nat
  /-- `P_DEV_ADDR`: the byte WRITE sends first. -/
  devAddr : Byte
  /-- `P_RESET_SCL`: the level of CLOCK at reset (OPEN in the spec). -/
  resetScl : Bit
  /-- `P_RESET_SDA`: the level of DATA at reset (OPEN in the spec). -/
  resetSda : Bit
  /-- The answers of the environment that a run fixes in advance, the `SCRIPT` of the spec's vectors: the
  `k`-th sample of the run answers `script[k]`. Empty where nothing is fixed. -/
  script : List Bit
  deriving DecidableEq, Repr

/-- The parameters `State.reset` takes: the defaults of R8; for the three OPEN parameters the values the
spec's own vectors use (95_test_vectors §0): settle unit 1000, both lines idle high. DESIGN CHOICE, unsafe:
log entries 2 and 3. No answer of the environment is fixed. -/
def Params.default : Params where
  halfUs := 100
  settleCount := 100
  settleUnitUs := 1000
  devAddr := 0x5A
  resetScl := true
  resetSda := true
  script := []

/-- The environment's answer to a sample, given every event recorded so far (R35). FREE VALUE: no law is
placed on it and it has no body (log entry 4). -/
opaque Config.oracle : List Event → Bit

end Sys2Proof
end

