-- ==== Sys2Proof/Syntax.lean ====
section
/-! DEFINITION. The eight commands of the engine (R51), one constructor per row of spec/opcode_table.json. -/

namespace Sys2Proof

/-- A decoded command. Every operand is an unsigned byte, used as it stands (R50). -/
inductive Instr where
  /-- DELAY (R62). -/
  | delay
  /-- START (R67). -/
  | start
  /-- STOP (R68). -/
  | stop
  /-- TX v (R69): `v` is field A. -/
  | tx (v : Byte)
  /-- RX (R72). -/
  | rx
  /-- SENDACK a (R73): `a` is field A; zero is acknowledge. -/
  | sendack (a : Byte)
  /-- READACK (R74). -/
  | readack
  /-- WRITE i, v (R75): `i` is field A, `v` is field B. -/
  | write (i v : Byte)
  deriving DecidableEq, Repr

end Sys2Proof
end

