-- ==== Sys2Proof/WellFormed.lean ====
section
/-! DEFINITION. The checks on what is written down: an assembler statement (R56, R57), an instruction, and
the parameters of an instance (R8). -/

namespace Sys2Proof

/-- The mnemonics of the assembler (R56) and its pseudo-commands (R57). -/
inductive AsmOp where
  | delay
  | start
  | stop
  | tx
  | rx
  | sendack
  | readack
  | write
  /-- Pseudo-command ACK. -/
  | ack
  /-- Pseudo-command NACK. -/
  | nack
  /-- Pseudo-command WAIT n. -/
  | wait
  deriving DecidableEq, Repr

/-- One assembler statement: a mnemonic and its operands in the order A, B (R56). -/
structure Source where
  op : AsmOp
  operands : List Nat
  deriving DecidableEq, Repr

/-- How many operands a mnemonic takes (R56, R57). -/
def AsmOp.arity : AsmOp → Nat
  | .tx => 1
  | .sendack => 1
  | .write => 2
  | .wait => 1
  | .delay => 0
  | .start => 0
  | .stop => 0
  | .rx => 0
  | .readack => 0
  | .ack => 0
  | .nack => 0

/-- An operand of a command must lie in 0..255 (R56); the count of `WAIT n` is any natural number (R57). -/
def AsmOp.operandInRange (op : AsmOp) (n : Nat) : Bool :=
  op == .wait || decide (n < 256)

/-- The assembler refuses a missing operand, an operand given to a command that takes none, and an operand
out of range (R56). -/
def Source.wellFormed (s : Source) : Bool :=
  s.operands.length == s.op.arity && s.operands.all s.op.operandInRange

/-- The statement that spells an instruction (R56). -/
def Instr.source : Instr → Source
  | .delay => ⟨.delay, []⟩
  | .start => ⟨.start, []⟩
  | .stop => ⟨.stop, []⟩
  | .tx v => ⟨.tx, [v.toNat]⟩
  | .rx => ⟨.rx, []⟩
  | .sendack a => ⟨.sendack, [a.toNat]⟩
  | .readack => ⟨.readack, []⟩
  | .write i v => ⟨.write, [i.toNat, v.toNat]⟩

/-- An instruction is well-formed when the assembler accepts its spelling. Operands are bytes by type, so
every instruction is (`Laws.wellFormed_all`). -/
def Instr.wellFormed (i : Instr) : Bool := i.source.wellFormed

/-- The constraints R8 puts on the parameters. -/
def Params.wellFormed (p : Params) : Bool :=
  decide (1 ≤ p.halfUs) && decide (1 ≤ p.settleCount) && decide (2 ≤ p.settleUnitUs)

end Sys2Proof
end

