-- ==== Sys2Proof/Decode.lean ====
section
/-! DEFINITION. The command format, the decoder (total on every word, rejecting by fault code), and after it
the encoder and the byte form of a command word (R49 to R57, R42). -/

namespace Sys2Proof

/-- The four fault codes (R83). The first two are raised by the decoder, the last two by READACK. -/
inductive FaultCode where
  /-- Code 1, `ILLEGAL_OPCODE`: raised by the decoder on an opcode outside 0x1..0x8. -/
  | illegalOpcode
  /-- Code 2, `RESERVED_FIELD`: raised by the decoder on a legal opcode with a nonzero reserved or unused field. -/
  | reservedField
  /-- Code 3, `ACK_UNWRITTEN`: raised by READACK when no TX has run since reset. -/
  | ackUnwritten
  /-- Code 4, `ACK_STALE`: raised by READACK when a bus call followed the last TX. -/
  | ackStale
  deriving DecidableEq, Repr

/-- What the decoder gives for a word: a command, or the fault it raises (R54). -/
inductive Decoded where
  | command (i : Instr)
  | reject (code : FaultCode)
  deriving DecidableEq, Repr

/-- What a byte stream gives: one whole word, decoded, and the bytes after it; or fewer than four bytes, which
are no command word (a host delivers words whole, R46). -/
inductive ByteDecoded where
  | whole (d : Decoded) (rest : List Byte)
  | truncated
  deriving DecidableEq, Repr

/-- The number of a fault code (R83). -/
def FaultCode.number : FaultCode → Byte
  | .illegalOpcode => 1
  | .reservedField => 2
  | .ackUnwritten => 3
  | .ackStale => 4

/-- `OP = word[3:0]` (R49). -/
def fieldOp (w : Word32) : BitVec 4 := w.extractLsb' 0 4
/-- `Z0 = word[7:4]` (R49). -/
def fieldZ0 (w : Word32) : BitVec 4 := w.extractLsb' 4 4
/-- `A = word[15:8]` (R49). -/
def fieldA (w : Word32) : Byte := w.extractLsb' 8 8
/-- `B = word[23:16]` (R49). -/
def fieldB (w : Word32) : Byte := w.extractLsb' 16 8
/-- `Z1 = word[31:24]` (R49). -/
def fieldZ1 (w : Word32) : Byte := w.extractLsb' 24 8

/-- The opcode map (R51): the command an opcode selects, with the operands it uses; none for an illegal
opcode (R53). -/
def commandOf (op : BitVec 4) (a b : Byte) : Option Instr :=
  match op.toNat with
  | 1 => some .delay
  | 2 => some .start
  | 3 => some .stop
  | 4 => some (.tx a)
  | 5 => some .rx
  | 6 => some (.sendack a)
  | 7 => some .readack
  | 8 => some (.write a b)
  | _ => none

/-- The command uses field A (R51). -/
def Instr.usesA : Instr → Bool
  | .tx _ => true
  | .sendack _ => true
  | .write _ _ => true
  | .delay => false
  | .start => false
  | .stop => false
  | .rx => false
  | .readack => false

/-- The command uses field B (R51). -/
def Instr.usesB : Instr → Bool
  | .write _ _ => true
  | .delay => false
  | .start => false
  | .stop => false
  | .tx _ => false
  | .rx => false
  | .sendack _ => false
  | .readack => false

/-- The decoder of R54, its checks in that order: the opcode, the reserved fields, an unused A, an unused B. -/
def decode (w : Word32) : Decoded :=
  match commandOf (fieldOp w) (fieldA w) (fieldB w) with
  | none => .reject .illegalOpcode
  | some i =>
    if fieldZ0 w ≠ 0 ∨ fieldZ1 w ≠ 0 then .reject .reservedField
    else if i.usesA = false ∧ fieldA w ≠ 0 then .reject .reservedField
    else if i.usesB = false ∧ fieldB w ≠ 0 then .reject .reservedField
    else .command i

/-- The opcode of a command (R51). -/
def Instr.opcode : Instr → BitVec 4
  | .delay => 1
  | .start => 2
  | .stop => 3
  | .tx _ => 4
  | .rx => 5
  | .sendack _ => 6
  | .readack => 7
  | .write _ _ => 8

/-- Field A of a command's word; an unused operand is 0 (R56). -/
def Instr.operandA : Instr → Byte
  | .tx v => v
  | .sendack a => a
  | .write i _ => i
  | .delay => 0
  | .start => 0
  | .stop => 0
  | .rx => 0
  | .readack => 0

/-- Field B of a command's word; an unused operand is 0 (R56). -/
def Instr.operandB : Instr → Byte
  | .write _ v => v
  | .delay => 0
  | .start => 0
  | .stop => 0
  | .tx _ => 0
  | .rx => 0
  | .sendack _ => 0
  | .readack => 0

/-- `word = OP | (A << 8) | (B << 16)` (R56). -/
def packWord (op : BitVec 4) (a b : Byte) : Word32 :=
  op.setWidth 32 ||| (a.setWidth 32 <<< 8) ||| (b.setWidth 32 <<< 16)

/-- The encoder (R56). -/
def encode (i : Instr) : Word32 := packWord i.opcode i.operandA i.operandB

/-- A word as a byte stream, least-significant byte first (R42). -/
def wordBytes (w : Word32) : List Byte :=
  [w.extractLsb' 0 8, w.extractLsb' 8 8, w.extractLsb' 16 8, w.extractLsb' 24 8]

/-- The word four bytes spell, least-significant byte first (R42). -/
def wordOfBytes (b0 b1 b2 b3 : Byte) : Word32 :=
  b0.setWidth 32 ||| (b1.setWidth 32 <<< 8) ||| (b2.setWidth 32 <<< 16) ||| (b3.setWidth 32 <<< 24)

/-- The first command of a byte stream, and the bytes after it. Total on any bytes. -/
def decodeBytes : List Byte → ByteDecoded
  | b0 :: b1 :: b2 :: b3 :: rest => .whole (decode (wordOfBytes b0 b1 b2 b3)) rest
  | _ => .truncated

/-- The bytes of a command. -/
def encodeBytes (i : Instr) : List Byte := wordBytes (encode i)

/-- The word of an instruction whose lowest `nbits` bits are `w` and whose other bits are 0. -/
def tableWord (nbits w : Nat) : Word32 := BitVec.ofNat 32 (w % 2 ^ nbits)

/-- The instruction the decoder reads from the bits `w` of an opcode-table row, laid out as the bytes of a
command word and read back from them. -/
def decodeTableWord (nbits w : Nat) : Option Instr :=
  match decodeBytes (wordBytes (tableWord nbits w)) with
  | .whole (.command i) _ => some i
  | .whole (.reject _) _ => none
  | .truncated => none

end Sys2Proof
end

