-- ==== Sys2Proof/Machine/State.lean ====
section
/-! DEFINITION. The state (R14, R17): plain data, everything the spec gives the engine, the host program and
the parameters of the instance; the reasons a step can stop; the state after reset (R96). -/

namespace Sys2Proof.Machine

/-- The fault record (R24): which fault, and the command word that raised it. -/
structure FaultRecord where
  code : FaultCode
  word : Word32
  deriving DecidableEq, Repr

/-- What a completed command hands back to the host (R55). -/
inductive Response where
  /-- `None`: DELAY, START, STOP, TX, SENDACK. -/
  | nothing
  /-- `Byte(v)`: RX. -/
  | byte (v : Byte)
  /-- `Flag(b)`: READACK (1 = ACK) and WRITE (1 = success). -/
  | flag (b : Bit)
  deriving DecidableEq, Repr

/-- The state of the engine (`scl` to `fault`, R14), of the host program it runs (`program`, `pc`, `resp`,
R17), and the parameters of the model instance (`params`, R8), which no step changes. -/
structure State where
  /-- The arguments of the model instance (R8, R25); constant. Log entry 1. -/
  params : Params
  /-- `S.scl`: the level the engine drives on CLOCK (R18). -/
  scl : Bit
  /-- `S.sda`: the level the engine drives on DATA (R19). -/
  sda : Bit
  /-- `S.ack`: the acknowledge flag; `none` = no TX since reset (R20). -/
  ack : Option Bool
  /-- `S.ackFresh`: the flag may still be read (R21). -/
  ackFresh : Bool
  /-- `S.time`: microseconds of delay performed since reset (R22). -/
  time : Nat
  /-- `S.trace`: every line event since reset, oldest first (R23). -/
  trace : List Event
  /-- `S.fault`: the first fault, if any (R24). -/
  fault : Option FaultRecord
  /-- The host program `P` (R17). -/
  program : List Word32
  /-- `H.pc`: how many commands of the program have completed (R17). -/
  pc : Nat
  /-- `H.resp`: the responses handed to the host (R17). -/
  resp : List Response
  deriving DecidableEq, Repr

/-- Why the machine stops. -/
inductive Fault where
  /-- The engine is stuck: `S.fault` holds `record`, and no command executes until reset (R85, R86). Raised by
  a step, or by any command, in a faulted state. Safe: it is the spec's own stuck state. -/
  | stuck (record : FaultRecord)
  deriving DecidableEq, Repr

/-- Why the model gives an instruction no meaning. -/
inductive Refusal where
  /-- Raised by an arm of `exec` whose instruction has no meaning yet. Safe: the model stops. No arm of this
  model raises it. -/
  | notModelled (mnemonic : String)
  deriving DecidableEq, Repr

/-- The state right after reset of an instance with parameters `p` (R96), with no host program loaded
(log entry 6). -/
def State.resetWith (p : Params) : State where
  params := p
  scl := p.resetScl
  sda := p.resetSda
  ack := none
  ackFresh := false
  time := 0
  trace := []
  fault := none
  program := []
  pc := 0
  resp := []

/-- The state right after reset, with the default parameters (R8, R96). -/
def State.reset : State := State.resetWith Params.default

end Sys2Proof.Machine
end

