-- ==== Sys2Proof/Machine/Ops.lean ====
section
/-! DEFINITION. The named operations every meaning is built from: the line port's three primitives and the
oracle (R32 to R37), handing a response to the host (R17, R55), raising a fault (R85), running a command in a
state that is not faulted (R85), and reset (R96). -/

namespace Sys2Proof.Machine

/-- The output `scl_o` (R32). -/
def sclOut (s : State) : Bit := s.scl

/-- The output `sda_o` (R32). -/
def sdaOut (s : State) : Bit := s.sda

/-- `DRIVE(line, v)` (R33): the event is recorded and the latch written, whatever level the line had. -/
def drive (line : Line) (v : Bit) (s : State) : State :=
  match line with
  | .clock => { s with trace := s.trace ++ [.drive .clock v s.time], scl := v }
  | .data => { s with trace := s.trace ++ [.drive .data v s.time], sda := v }

/-- An event is a sample. -/
def isSample : Event → Bool
  | .sample _ _ => true
  | .drive _ _ _ => false
  | .wait _ _ => false

/-- How many samples a trace holds. -/
def sampleCount (tr : List Event) : Nat := tr.countP isSample

/-- The oracle `O` of an instance (R35): a bit that depends on the events recorded so far and on nothing
else. The first samples of a run answer the instance's script; every other answer is the free value
`Config.oracle` (log entry 4). -/
def oracle (p : Params) (tr : List Event) : Bit :=
  match p.script[sampleCount tr]? with
  | some b => b
  | none => Config.oracle tr

/-- The bit a sample taken now returns (R34). It is not tied to the engine's own DATA level (R36). -/
def answer (s : State) : Bit := oracle s.params s.trace

/-- The state after `SAMPLE()` (R34): the event is recorded, no line is written. The value returned is
`answer` of the state before. -/
def sample (s : State) : State := { s with trace := s.trace ++ [.sample (answer s) s.time] }

/-- `WAIT(n)` (R37). -/
def wait (n : Nat) (s : State) : State := { s with trace := s.trace ++ [.wait n s.time], time := s.time + n }

/-- `HALF()` (R58). -/
def half (s : State) : State := wait s.params.halfUs s

/-- `T_SETTLE` (R8, R63). -/
def settleUs (p : Params) : Nat := p.settleCount * p.settleUnitUs

/-- The settle delay, one event (R63). -/
def settle (s : State) : State := wait (settleUs s.params) s

/-- `DRIVE(line, v); HALF()`: a drive under the delay discipline (R59). -/
def driveHalf (line : Line) (v : Bit) (s : State) : State := half (drive line v s)

/-- `SAMPLE(); HALF()`: a sample under the delay discipline (R59). -/
def sampleHalf (s : State) : State := half (sample s)

/-- `respond(r)` (R12, R55): the host appends the response and goes on to its next command (R17). -/
def respond (r : Response) (s : State) : State := { s with resp := s.resp ++ [r], pc := s.pc + 1 }

/-- `raise Fault(code)` for the word `w` (R85): the record is written and nothing else changes; the host
stays at the faulting command (R17). -/
def raise (code : FaultCode) (w : Word32) (s : State) : State := { s with fault := some ⟨code, w⟩ }

/-- The state after a command whose primitives give `r`, once the response is handed over. -/
def complete (r : State × Response) : State := respond r.2 r.1

/-- A command runs only while the engine is not faulted; a faulted engine is stuck (R85). -/
def whenLive (t : State) (s : State) : Host.Outcome State Fault Refusal :=
  match s.fault with
  | none => .next t
  | some r => .fault (.stuck r)

/-- Running a command whose body is a sequence of primitives ending in a response (R29: atomic). -/
def runCommand (body : State → State × Response) (s : State) : Host.Outcome State Fault Refusal :=
  whenLive (complete (body s)) s

/-- Reset of a running engine (R96): every engine field takes its reset value, in any state, faulted or not;
the parameters stay, and the host's own program, index and responses are not the engine's (log entry 10).
An outside event, never part of a step. -/
def engineReset (s : State) : State :=
  { s with
    scl := s.params.resetScl
    sda := s.params.resetSda
    ack := none
    ackFresh := false
    time := 0
    trace := []
    fault := none }

end Sys2Proof.Machine
end

