-- ==== Sys2Proof/Machine/Operands.lean ====
section
/-! DEFINITION. The operand forms (R50): the bits of a byte in wire order (R41), the accumulator of RX (R27,
R72), and the acknowledge select of SENDACK. -/

namespace Sys2Proof.Machine

/-- `v[i]` (R10). -/
def bitAt (v : Byte) (i : Nat) : Bit := v.getLsbD i

/-- The eight bits of a byte in wire order, most significant first (R41). -/
def bitsMsb (v : Byte) : List Bit :=
  [bitAt v 7, bitAt v 6, bitAt v 5, bitAt v 4, bitAt v 3, bitAt v 2, bitAt v 1, bitAt v 0]

/-- `((r << 1) OR b) mod 256` (R72). -/
def shiftIn (r : Byte) (b : Bit) : Byte := (r <<< 1) ||| (BitVec.ofBool b).setWidth 8

/-- The byte a list of bits spells, first bit most significant, by the accumulator of R27. -/
def byteOfBits (bs : List Bit) : Byte := bs.foldl shiftIn 0

/-- The DATA level SENDACK drives (R50, R73): low for `a = 0`, high for every other value. -/
def ackLevel (a : Byte) : Bit := decide (a ≠ 0)

end Sys2Proof.Machine
end

