-- ==== Sys2Proof/Machine/Flags.lean ====
section
/-! DEFINITION. The acknowledge flag: what TX writes into it (R70), its freshness (R21), and what READACK may
read (R74). -/

namespace Sys2Proof.Machine

/-- The flag value of an acknowledge sample `b` (R70): DATA low is ACK. -/
def ackOf (b : Bit) : Bool := !b

/-- TX's last step (R69): the flag takes the sample's result and is fresh. -/
def setAck (b : Bit) (s : State) : State := { s with ack := some (ackOf b), ackFresh := true }

/-- The last step of START, STOP, RX and SENDACK (R21): the flag is no longer fresh; its value stays. -/
def expireAck (s : State) : State := { s with ackFresh := false }

/-- The acknowledge sample that WRITE tests was a NACK (R75). -/
def nacked (s : State) : Bool := s.ack == some false

/-- What a read of the flag gives (R74): the flag, or the fault it raises; `ACK_UNWRITTEN` goes before
`ACK_STALE` (R84). -/
def readFlag (s : State) : Except FaultCode Bool :=
  match s.ack with
  | none => .error .ackUnwritten
  | some b => if s.ackFresh then .ok b else .error .ackStale

end Sys2Proof.Machine
end

