-- ==== Sys2Proof/Machine/Bus.lean ====
section
/-! DEFINITION. The Bus Protocol Engine: START (R67), STOP (R68), TX (R69 to R71), RX (R72), SENDACK (R73) and
READACK (R74). The sequence of each command, without its response, is a function of its own, because WRITE
performs START, TX and STOP (42_transaction). No sequence looks at the entry levels (R65). -/

namespace Sys2Proof.Machine

/-- START's primitives (R67). -/
def startSeq (s : State) : State :=
  s |> driveHalf .data false |> driveHalf .clock false |> expireAck

/-- STOP's primitives (R68). -/
def stopSeq (s : State) : State :=
  s |> driveHalf .data false |> driveHalf .clock true |> driveHalf .data true |> expireAck

/-- One data bit of TX (R69): DATA to the bit, CLOCK high, CLOCK low. -/
def txBit (s : State) (b : Bit) : State :=
  s |> driveHalf .data b |> driveHalf .clock true |> driveHalf .clock false

/-- TX up to its acknowledge sample (R69): the eight bits, DATA released, CLOCK high. -/
def txLead (v : Byte) (s : State) : State :=
  (bitsMsb v).foldl txBit s |> driveHalf .data true |> driveHalf .clock true

/-- TX's primitives (R69): the acknowledge bit is the sample taken in the ninth pulse (R70). -/
def txSeq (v : Byte) (s : State) : State :=
  txLead v s |> sampleHalf |> driveHalf .clock false |> setAck (answer (txLead v s))

/-- The CLOCK edges of one bit of RX, before its sample (R72). -/
def rxEdge (s : State) : State := s |> driveHalf .clock false |> driveHalf .clock true

/-- One bit of RX (R72): the sample goes into the accumulator. -/
def rxBit (r : Byte × State) : Byte × State := (shiftIn r.1 (answer (rxEdge r.2)), sampleHalf (rxEdge r.2))

/-- `k` bits of RX, one after the other (R72). -/
def rxBits : Nat → Byte × State → Byte × State
  | 0, r => r
  | k + 1, r => rxBits k (rxBit r)

/-- RX's primitives (R72): the byte received and the state after; CLOCK is lowered once at the end (D8) and
DATA is never driven. -/
def rxSeq (s : State) : Byte × State :=
  ((rxBits 8 (0, s)).1, (rxBits 8 (0, s)).2 |> driveHalf .clock false |> expireAck)

/-- SENDACK's primitives (R73). -/
def sendackSeq (a : Byte) (s : State) : State :=
  s |> driveHalf .data (ackLevel a) |> driveHalf .clock true |> driveHalf .clock false |> expireAck

/-- START (R67). -/
def execStart (s : State) : Host.Outcome State Fault Refusal :=
  runCommand (fun s => (startSeq s, .nothing)) s

/-- STOP (R68). -/
def execStop (s : State) : Host.Outcome State Fault Refusal :=
  runCommand (fun s => (stopSeq s, .nothing)) s

/-- TX v (R69). -/
def execTx (v : Byte) (s : State) : Host.Outcome State Fault Refusal :=
  runCommand (fun s => (txSeq v s, .nothing)) s

/-- RX (R72): the response is the received byte. -/
def execRx (s : State) : Host.Outcome State Fault Refusal :=
  runCommand (fun s => ((rxSeq s).2, .byte (rxSeq s).1)) s

/-- SENDACK a (R73). -/
def execSendack (a : Byte) (s : State) : Host.Outcome State Fault Refusal :=
  runCommand (fun s => (sendackSeq a s, .nothing)) s

/-- The state after READACK in an engine that is not faulted (R74): the flag is handed over, or its fault is
taken with READACK's own word, the only word that decodes to READACK (log entry 9). -/
def readackNext (s : State) : State :=
  match readFlag s with
  | .ok b => complete (s, .flag b)
  | .error c => raise c (encode .readack) s

/-- READACK (R74). -/
def execReadack (s : State) : Host.Outcome State Fault Refusal := whenLive (readackNext s) s

end Sys2Proof.Machine
end

