-- ==== Sys2Proof/Machine/Timing.lean ====
section
/-! DEFINITION. The Bus Timing Core's command: DELAY (R62). -/

namespace Sys2Proof.Machine

/-- DELAY (R62): one half period; the flag stays fresh. -/
def execDelay (s : State) : Host.Outcome State Fault Refusal :=
  runCommand (fun s => (half s, .nothing)) s

end Sys2Proof.Machine
end

