-- ==== Sys2Proof/Machine/Transaction.lean ====
section
/-! DEFINITION. The Transaction Driver: WRITE (R75 to R81), composed of START, three TX and STOP. -/

namespace Sys2Proof.Machine

/-- WRITE up to the acknowledge test of the address byte (R75, steps 1 and 2). The device address is sent
unchanged (R43). -/
def writeAddr (s : State) : State := txSeq s.params.devAddr (startSeq s)

/-- WRITE up to the acknowledge test of the index byte (R75, step 3). -/
def writeIndex (i : Byte) (s : State) : State := txSeq i (writeAddr s)

/-- WRITE up to the acknowledge test of the value byte (R75, step 4). -/
def writeValue (i v : Byte) (s : State) : State := txSeq v (writeIndex i s)

/-- WRITE's steps (R75): an abort at the first missing acknowledge, with no STOP and no settle delay (R77);
otherwise STOP and the settle delay (R76). -/
def writeSeq (i v : Byte) (s : State) : State × Response :=
  if nacked (writeAddr s) then (writeAddr s, .flag false)
  else if nacked (writeIndex i s) then (writeIndex i s, .flag false)
  else if nacked (writeValue i v s) then (writeValue i v s, .flag false)
  else (settle (stopSeq (writeValue i v s)), .flag true)

/-- WRITE i, v (R75). -/
def execWrite (i v : Byte) (s : State) : Host.Outcome State Fault Refusal := runCommand (writeSeq i v) s

end Sys2Proof.Machine
end

