-- ==== Sys2Proof/Machine/Dispatch.lean ====
section
/-! DEFINITION. One arm per command of the opcode map (R51). -/

namespace Sys2Proof.Machine

/-- What executing a decoded command gives. -/
def exec (i : Instr) (s : State) : Host.Outcome State Fault Refusal :=
  match i with
  | .delay => Sys2Proof.Machine.execDelay s
  | .start => Sys2Proof.Machine.execStart s
  | .stop => Sys2Proof.Machine.execStop s
  | .tx v => Sys2Proof.Machine.execTx v s
  | .rx => Sys2Proof.Machine.execRx s
  | .sendack a => Sys2Proof.Machine.execSendack a s
  | .readack => Sys2Proof.Machine.execReadack s
  | .write x v => Sys2Proof.Machine.execWrite x v s

end Sys2Proof.Machine
end

