-- ==== Sys2Proof/Machine/Issue.lean ====
section
/-! DEFINITION. The host's side of a step (R17, R46): which command word comes next, issuing it to the engine,
and placing or loading words in the host program. -/

namespace Sys2Proof.Machine

/-- The word the host issues next, if the program has not ended (R17). -/
def nextCommand (s : State) : Option Word32 := s.program[s.pc]?

/-- The engine takes one command word (R54, R85): a decoded command executes; a rejected word raises its
fault, with the word recorded. -/
def issue (w : Word32) (s : State) : Host.Outcome State Fault Refusal :=
  match decode w with
  | .command i => exec i s
  | .reject c => whenLive (raise c w s) s

/-- One step of the host program (R17): a faulted engine is stuck (R85); a program that has ended leaves the
engine waiting with its state held (R95, R96, log entry 7); otherwise the next word is issued. -/
def hostStep (s : State) : Host.Outcome State Fault Refusal :=
  match s.fault with
  | some r => .fault (.stuck r)
  | none =>
    match nextCommand s with
    | none => .next s
    | some w => issue w s

/-- The program with `w` as its command number `k`; the other commands stay, and a program too short is
filled up with zero words before it. -/
def placeCommand (w : Word32) : Nat → List Word32 → List Word32
  | 0, [] => [w]
  | 0, _ :: rest => w :: rest
  | k + 1, [] => 0 :: placeCommand w k []
  | k + 1, x :: rest => x :: placeCommand w k rest

/-- The host starts the program `P` (R17): the index at 0 and no response yet. -/
def loadProgram (words : List Word32) (s : State) : State := { s with program := words, pc := 0, resp := [] }

end Sys2Proof.Machine
end

