-- ==== Sys2Proof/Machine/Step.lean ====
section
/-! DEFINITION. The step of the machine (R17), and placing an instruction where the next step takes it. -/

namespace Sys2Proof.Machine

/-- One step: the host issues its next command and the engine executes it to completion (R17, R29). -/
def step (s : State) : Host.Outcome State Fault Refusal := hostStep s

/-- `s` with the instruction of the table bits `w` as the command the host issues next (log entry 6). -/
def State.withFetchWord (s : State) (nbits w : Nat) : State :=
  { s with program := placeCommand (tableWord nbits w) s.pc s.program }

end Sys2Proof.Machine
end

