-- ==== Sys2Proof/Machine/Assembler.lean ====
section
/-! DEFINITION. The assembler (R56), its pseudo-commands (R57), and programs as byte streams (R42). A tool
beside the machine: no step uses it. -/

namespace Sys2Proof.Machine

/-- Why the assembler refuses a line (R56). -/
inductive AsmError where
  /-- The line does not begin with a mnemonic of R56 or R57. -/
  | unknownMnemonic
  /-- An operand is no decimal or 0x-hexadecimal number. -/
  | badNumber
  /-- An operand is missing, out of range, or given to a command that takes none. -/
  | badOperands
  deriving DecidableEq, Repr

/-- The commands a statement stands for (R56, R57); none where the assembler refuses it. -/
def expand (src : Source) : Option (List Instr) :=
  if src.wellFormed then
    match src.op, src.operands with
    | .delay, [] => some [.delay]
    | .start, [] => some [.start]
    | .stop, [] => some [.stop]
    | .tx, [v] => some [.tx (BitVec.ofNat 8 v)]
    | .rx, [] => some [.rx]
    | .sendack, [a] => some [.sendack (BitVec.ofNat 8 a)]
    | .readack, [] => some [.readack]
    | .write, [i, v] => some [.write (BitVec.ofNat 8 i) (BitVec.ofNat 8 v)]
    | .ack, [] => some [.sendack 0]
    | .nack, [] => some [.sendack 1]
    | .wait, [n] => some (List.replicate n .delay)
    | _, _ => none
  else none

/-- The words of a statement (R56, R57). -/
def assemble (src : Source) : Option (List Word32) := (expand src).map (·.map encode)

/-- The spellings of R56 and R57. -/
def spellings : List (List Char × AsmOp) :=
  [ (['D', 'E', 'L', 'A', 'Y'], .delay),
    (['S', 'T', 'A', 'R', 'T'], .start),
    (['S', 'T', 'O', 'P'], .stop),
    (['T', 'X'], .tx),
    (['R', 'X'], .rx),
    (['S', 'E', 'N', 'D', 'A', 'C', 'K'], .sendack),
    (['R', 'E', 'A', 'D', 'A', 'C', 'K'], .readack),
    (['W', 'R', 'I', 'T', 'E'], .write),
    (['A', 'C', 'K'], .ack),
    (['N', 'A', 'C', 'K'], .nack),
    (['W', 'A', 'I', 'T'], .wait) ]

/-- A space or a tab. -/
def isBlank (c : Char) : Bool := c == ' ' || c == '\t'

/-- Characters without the blanks at both ends. -/
def trimBlanks (cs : List Char) : List Char := ((cs.dropWhile isBlank).reverse.dropWhile isBlank).reverse

/-- The value of a digit in a base of at most 16; hexadecimal letters in either case (log entry 14). -/
def digitValue (base : Nat) (c : Char) : Option Nat :=
  let v := if c.isDigit then some (c.toNat - '0'.toNat)
    else if 'a'.toNat ≤ c.toNat ∧ c.toNat ≤ 'f'.toNat then some (c.toNat - 'a'.toNat + 10)
    else if 'A'.toNat ≤ c.toNat ∧ c.toNat ≤ 'F'.toNat then some (c.toNat - 'A'.toNat + 10)
    else none
  v.filter (· < base)

/-- The digits of a number, most significant first, onto a value so far. -/
def digitsValue (base : Nat) : Nat → List Char → Option Nat
  | acc, [] => some acc
  | acc, c :: rest => (digitValue base c).bind fun d => digitsValue base (acc * base + d) rest

/-- A number: decimal, or hexadecimal with `0x` (R56). -/
def number : List Char → Option Nat
  | '0' :: 'x' :: c :: rest => digitsValue 16 0 (c :: rest)
  | c :: rest => digitsValue 10 0 (c :: rest)
  | [] => none

/-- The character of a digit below 16. -/
def digitChar (d : Nat) : Char :=
  ['0', '1', '2', '3', '4', '5', '6', '7', '8', '9', 'A', 'B', 'C', 'D', 'E', 'F'].getD d '0'

/-- The digits of `n` in a base, before the characters `acc`; the first argument bounds their number. -/
def digitsOf (base : Nat) : Nat → Nat → List Char → List Char
  | 0, _, acc => acc
  | bound + 1, n, acc =>
    if n < base then digitChar n :: acc else digitsOf base bound (n / base) (digitChar (n % base) :: acc)

/-- A number written in decimal (R56). -/
def decimal (n : Nat) : List Char := digitsOf 10 (n + 1) n []

/-- A number written in hexadecimal with `0x` (R56). -/
def hexadecimal (n : Nat) : List Char := '0' :: 'x' :: digitsOf 16 (n + 1) n []

/-- The pieces of a text between separators. -/
def pieces (sep : Char) : List Char → List (List Char)
  | [] => [[]]
  | c :: rest =>
    if c = sep then [] :: pieces sep rest
    else
      match pieces sep rest with
      | [] => [[c]]
      | p :: ps => (c :: p) :: ps

/-- The operands after a mnemonic, separated by commas (R56); no text is no operand. -/
def operandsOf (cs : List Char) : Option (List Nat) :=
  if trimBlanks cs = [] then some [] else (pieces ',' cs).mapM fun p => number (trimBlanks p)

/-- One line: a mnemonic in capitals, then its operands, then a comment after `;` (R56). A line with neither
is no command. -/
def parseLine (line : List Char) : Except AsmError (Option Source) :=
  let text := trimBlanks (line.takeWhile (· ≠ ';'))
  if text = [] then .ok none
  else
    match spellings.lookup (text.takeWhile (fun c => !isBlank c)) with
    | none => .error .unknownMnemonic
    | some op =>
      match operandsOf (text.dropWhile (fun c => !isBlank c)) with
      | none => .error .badNumber
      | some ns => .ok (some ⟨op, ns⟩)

/-- The words of one line. -/
def assembleLine (line : List Char) : Except AsmError (List Word32) :=
  match parseLine line with
  | .error e => .error e
  | .ok none => .ok []
  | .ok (some src) =>
    match assemble src with
    | none => .error .badOperands
    | some ws => .ok ws

/-- The words of a program text, one command per line (R56). -/
def assembleLines : List (List Char) → Except AsmError (List Word32)
  | [] => .ok []
  | line :: rest =>
    match assembleLine line, assembleLines rest with
    | .ok ws, .ok more => .ok (ws ++ more)
    | .error e, _ => .error e
    | .ok _, .error e => .error e

/-- A program as a byte stream, each word least-significant byte first (R42). -/
def programBytes (ws : List Word32) : List Byte := ws.flatMap wordBytes

/-- The program a byte stream spells; none where the stream is no whole number of words. -/
def programOfBytes : List Byte → Option (List Word32)
  | [] => some []
  | b0 :: b1 :: b2 :: b3 :: rest => (programOfBytes rest).map (wordOfBytes b0 b1 b2 b3 :: ·)
  | _ => none

end Sys2Proof.Machine
end

