-- ==== Sys2Proof/Machine/Monitor.lean ====
section
/-! DEFINITION. Readings of the wire: the conditions of R47 and the bus monitor of R48. They are readings of a
trace, not engine state, and no command reads them. -/

namespace Sys2Proof.Machine

/-- Both lines at 1 (R47). -/
def idle (s : State) : Bool := s.scl && s.sda

/-- What the scan for START and STOP remembers: the line the last line event drove and the level (none after a
sample), and whether a START was performed with no STOP after it. -/
structure ClaimScan where
  last : Option (Line × Bit)
  started : Bool
  deriving DecidableEq, Repr

/-- One event of the scan. CLOCK driven to 0 next after DATA driven to 0 ends the drives of a START (R67), DATA
driven to 1 next after CLOCK driven to 1 ends those of a STOP (R68); no other command makes either pair (log
entry 16). -/
def claimStep (m : ClaimScan) : Event → ClaimScan
  | .drive .clock v _ => ⟨some (.clock, v), m.started || (!v && decide (m.last = some (.data, false)))⟩
  | .drive .data v _ => ⟨some (.data, v), m.started && !(v && decide (m.last = some (.clock, true)))⟩
  | .sample _ _ => { m with last := none }
  | .wait _ _ => m

/-- The scan of a trace since reset. -/
def claimScan (tr : List Event) : ClaimScan := tr.foldl claimStep ⟨none, false⟩

/-- A trace has a START, of a START command or of a WRITE, with no STOP after it. -/
def started (tr : List Event) : Bool := (claimScan tr).started

/-- Claimed: CLOCK at 0 after a START (R47), with no STOP since (00_scope glossary). -/
def claimed (s : State) : Bool := !s.scl && started s.trace

/-- A change of DATA from `d` to `d'` while CLOCK is `c` is a START condition (R47). -/
def startCondition (c d d' : Bit) : Bool := c && d && !d'

/-- A change of DATA from `d` to `d'` while CLOCK is `c` is a STOP condition (R47). -/
def stopCondition (c d d' : Bit) : Bool := c && !d && d'

/-- The open bit slot of the monitor (R48). -/
inductive Slot where
  | none
  | void
  | bit (b : Bit)
  deriving DecidableEq, Repr

/-- What the monitor emits (R48). -/
inductive Token where
  /-- `S`: a START condition. -/
  | start
  /-- `P`: a STOP condition. -/
  | stop
  /-- `Byte(v, a)`: eight data bits and the acknowledge bit of one frame. -/
  | byte (v : Byte) (a : Bit)
  /-- `Partial(bits)`: the bits of an unfinished frame at the end. -/
  | unfinished (bits : List Bit)
  deriving DecidableEq, Repr

/-- The monitor while it scans (R48): levels `c` and `d`, bit list `bs`, the open slot, and what it emitted. -/
structure MonitorState where
  c : Bit
  d : Bit
  bs : List Bit
  slot : Slot
  out : List Token
  deriving DecidableEq, Repr

/-- An open slot in which DATA made a condition carries no bit (R48). -/
def voidSlot : Slot → Slot
  | .none => .none
  | .void => .void
  | .bit _ => .void

/-- A START or STOP condition: the token is emitted and the bit count starts anew (R48). -/
def monitorCondition (tok : Token) (m : MonitorState) : MonitorState :=
  { m with out := m.out ++ [tok], bs := [], slot := voidSlot m.slot }

/-- `Drive(DATA, v)` (R48). -/
def monitorData (v : Bit) (m : MonitorState) : MonitorState :=
  if startCondition m.c m.d v then { monitorCondition .start m with d := v }
  else if stopCondition m.c m.d v then { monitorCondition .stop m with d := v }
  else { m with d := v }

/-- A bit slot closes with the value `b`; the ninth bit of a frame emits its byte (R48). -/
def monitorBit (b : Bit) (m : MonitorState) : MonitorState :=
  if m.bs.length = 8 then { m with out := m.out ++ [.byte (byteOfBits m.bs) b], bs := [] }
  else { m with bs := m.bs ++ [b] }

/-- A falling edge closes the open slot (R48). -/
def monitorFall (m : MonitorState) : MonitorState :=
  match m.slot with
  | .bit b => { monitorBit b m with slot := .none }
  | .void => { m with slot := .none }
  | .none => m

/-- `Drive(CLOCK, v)` (R48). -/
def monitorClock (v : Bit) (m : MonitorState) : MonitorState :=
  if !m.c && v then { m with slot := .bit m.d, c := v }
  else if m.c && !v then { monitorFall m with c := v }
  else { m with c := v }

/-- `Sample(b)` (R48). -/
def monitorSample (b : Bit) (m : MonitorState) : MonitorState :=
  match m.slot with
  | .bit x => { m with slot := .bit (x && b) }
  | .void => m
  | .none => m

/-- One event of the scan (R48). -/
def monitorStep (m : MonitorState) : Event → MonitorState
  | .drive .data v _ => monitorData v m
  | .drive .clock v _ => monitorClock v m
  | .sample b _ => monitorSample b m
  | .wait _ _ => m

/-- At the end of the scan (R48): the tokens, and the bits of an unfinished frame if there are any. -/
def monitorEnd (m : MonitorState) : List Token :=
  if m.bs = [] then m.out else m.out ++ [.unfinished m.bs]

/-- The scan starts from the line levels, with no bit, no open slot and nothing emitted (R48, log entry 13). -/
def monitorInit (scl0 sda0 : Bit) : MonitorState := ⟨scl0, sda0, [], .none, []⟩

/-- `Mon(trace, scl0, sda0)` (R48). -/
def monitor (tr : List Event) (scl0 sda0 : Bit) : List Token :=
  monitorEnd (tr.foldl monitorStep (monitorInit scl0 sda0))

end Sys2Proof.Machine
end

