-- ==== Sys2Proof/Machine/Waveform.lean ====
section
/-! DEFINITION. The waveform each command puts on the line port, as data: its line events in order (the trace
notation of 41_bus_protocol and 95_test_vectors), and the timed trace they make under the delay discipline
(R59). Statements compare the commands, which run primitives, with these lists. -/

namespace Sys2Proof.Machine

/-- A line event without its time: `C0`/`C1`, `D0`/`D1`, `S0`/`S1` of the vectors. -/
inductive Act where
  | drive (line : Line) (v : Bit)
  | sample (b : Bit)
  deriving DecidableEq, Repr

/-- The event of an act at time `t` (R23). -/
def eventAt (t : Nat) : Act → Event
  | .drive line v => .drive line v t
  | .sample b => .sample b t

/-- The timed trace of acts that begin at time `t`, each followed at once by one half period `h` (R59). -/
def paced (h : Nat) : Nat → List Act → List Event
  | _, [] => []
  | t, a :: rest => eventAt t a :: .wait h t :: paced h (t + h) rest

/-- The waveform of START (R67): `D0 C0`. -/
def startActs : List Act := [.drive .data false, .drive .clock false]

/-- The waveform of STOP (R68): `D0 C1 D1`. -/
def stopActs : List Act := [.drive .data false, .drive .clock true, .drive .data true]

/-- The waveform of one data bit of TX (R69). -/
def txBitActs (b : Bit) : List Act := [.drive .data b, .drive .clock true, .drive .clock false]

/-- The waveform of TX before its acknowledge sample (R69). -/
def txLeadActs (v : Byte) : List Act :=
  (bitsMsb v).flatMap txBitActs ++ [.drive .data true, .drive .clock true]

/-- The waveform of TX whose acknowledge sample reads `b` (R69). -/
def txActs (v : Byte) (b : Bit) : List Act := txLeadActs v ++ [.sample b, .drive .clock false]

/-- The waveform of one bit of RX that reads `b` (R72). -/
def rxBitActs (b : Bit) : List Act := [.drive .clock false, .drive .clock true, .sample b]

/-- The waveform of RX before the sample that follows the samples `bs` (R72). -/
def rxLeadActs (bs : List Bit) : List Act :=
  bs.flatMap rxBitActs ++ [.drive .clock false, .drive .clock true]

/-- The waveform of RX whose samples read `bs` (R72). -/
def rxActs (bs : List Bit) : List Act := bs.flatMap rxBitActs ++ [.drive .clock false]

/-- The waveform of SENDACK (R73). -/
def sendackActs (a : Byte) : List Act := txBitActs (ackLevel a)

/-- The events a state's trace gains from acts that begin now. -/
def pacedFrom (s : State) (acts : List Act) : List Event := paced s.params.halfUs s.time acts

/-- The environment's answer to a sample taken after `acts` have been performed from `s` (R35). -/
def answerAfter (s : State) (acts : List Act) : Bit := oracle s.params (s.trace ++ pacedFrom s acts)

/-- The waveform of a START and bytes that are all acknowledged: the way of a WRITE before its next byte (R75). -/
def ackedActs (bytes : List Byte) : List Act := startActs ++ bytes.flatMap fun v => txActs v false

/-- The three bytes a WRITE sends, in order (R42, R75). -/
def writeBytes (p : Params) (i v : Byte) : List Byte := [p.devAddr, i, v]

/-- The acknowledge bit of byte `k` of a WRITE issued in `s`, `k` counted from 1, where the bytes before it
were acknowledged (R77). -/
def writeAckBit (s : State) (i v : Byte) (k : Nat) : Bit :=
  answerAfter s
    (ackedActs ((writeBytes s.params i v).take (k - 1)) ++ txLeadActs ((writeBytes s.params i v).getD (k - 1) 0))

/-- The waveform of a WRITE that stops at byte `k`, counted from 1 (R77). -/
def writeAbortActs (p : Params) (i v : Byte) (k : Nat) : List Act :=
  ackedActs ((writeBytes p i v).take (k - 1)) ++ txActs ((writeBytes p i v).getD (k - 1) 0) true

/-- The waveform of a WRITE that succeeds, before its settle delay (R76). -/
def writeDoneActs (p : Params) (i v : Byte) : List Act := ackedActs (writeBytes p i v) ++ stopActs

end Sys2Proof.Machine
end

