-- ==== Sys2Proof/Safety.lean ====
section
/-! DEFINITION. The terms claims use: the premises of R97, the readings of a trace that the rules speak of
(R18, R22, R34, R59, R60), and the invariants of the machine. -/

namespace Sys2Proof.Machine

/-- The state of a run after `n` steps from `s`; none where a step before it answers no state. -/
def runFor : Nat → State → Option State
  | 0, s => some s
  | n + 1, s =>
    match step s with
    | .next t => runFor n t
    | .fault _ => none
    | .refused _ => none

/-- The engine is not faulted: premise NoFault (R97) for one state. -/
abbrev Live (s : State) : Prop := s.fault = none

/-- Premise NoFault (R97): no fault stands in any state of the run from `s`. -/
abbrev RunNoFault (s : State) : Prop := ∀ n t, runFor n s = some t → t.fault = none

/-- Premise FreshReset (R97). -/
abbrev FreshReset (s : State) : Prop :=
  s.ack = none ∧ s.ackFresh = false ∧ s.time = 0 ∧ s.trace = [] ∧ s.fault = none

/-- The levels at which the device leaves the two lines, 1 being released. They are the environment's and no
part of State: the engine meets the device only in the oracle's answers (R35, R38), so a claim takes them as an
argument (log entry 17). -/
structure DeviceLines where
  clock : Bit
  data : Bit
  deriving DecidableEq, Repr

/-- The device releases both lines. -/
abbrev DeviceLines.Released (d : DeviceLines) : Prop := d.clock = true ∧ d.data = true

/-- Premise BusIdle (R97): both reset levels are 1 and the device releases both lines. -/
abbrev BusIdle (p : Params) (d : DeviceLines) : Prop := p.resetScl = true ∧ p.resetSda = true ∧ d.Released

/-- The event at position `k` of a trace is the acknowledge sample of a TX and reads 1. A sample is the
acknowledge sample of a TX where the event four before it drives DATA (95_test_vectors section 0). -/
def nackAt (tr : List Event) (k : Nat) : Bool :=
  match tr[k]?, (if 4 ≤ k then tr[k - 4]? else none) with
  | some (.sample b _), some (.drive .data _ _) => b
  | _, _ => false

/-- Every acknowledge sample of a TX in a trace reads 0. -/
def allAcked (tr : List Event) : Bool := (List.range tr.length).all fun k => !nackAt tr k

/-- Premise DeviceAcks (R97): in the run from `s` every acknowledge sample of a TX, of a TX command or of a
WRITE, reads 0. -/
abbrev RunDeviceAcks (s : State) : Prop := ∀ n t, runFor n s = some t → allAcked t.trace = true

/-- Premise DeviceAcks as one WRITE issued in `s` uses it: its three acknowledge samples read 0. -/
abbrev DeviceAcks (s : State) (i v : Byte) : Prop :=
  writeAckBit s i v 1 = false ∧ writeAckBit s i v 2 = false ∧ writeAckBit s i v 3 = false

/-- Premise DeviceNacksAt(k) (R97), for one WRITE: 0 at the first `k - 1` acknowledge samples, 1 at the
`k`-th; `k` is 1, 2 or 3. -/
abbrev DeviceNacksAt (s : State) (i v : Byte) (k : Nat) : Prop :=
  1 ≤ k ∧ k ≤ 3 ∧ (∀ j, j < k → 1 ≤ j → writeAckBit s i v j = false) ∧ writeAckBit s i v k = true

/-- The level a trace last drove on a line; `l` where it drove none (R18, R19). -/
def lastLevel (line : Line) (l : Bit) : List Event → Bit
  | [] => l
  | .drive line' v _ :: rest => lastLevel line (if line' = line then v else l) rest
  | .sample _ _ :: rest => lastLevel line l rest
  | .wait _ _ :: rest => lastLevel line l rest

/-- The delay a trace has performed (R22). -/
def elapsed : List Event → Nat
  | [] => 0
  | .wait n _ :: rest => n + elapsed rest
  | .drive _ _ _ :: rest => elapsed rest
  | .sample _ _ :: rest => elapsed rest

/-- Every event of a trace that begins at time `t` carries the time at which it was recorded (R23). -/
def timed : Nat → List Event → Bool
  | _, [] => true
  | t, .wait n t' :: rest => t' == t && timed (t + n) rest
  | t, .drive _ _ t' :: rest => t' == t && timed t rest
  | t, .sample _ t' :: rest => t' == t && timed t rest

/-- The delay discipline (R59): every drive and every sample is followed at once by one half period `h`. -/
def disciplined (h : Nat) : List Event → Bool
  | [] => true
  | .wait _ _ :: rest => disciplined h rest
  | .drive _ _ t :: .wait n t' :: rest => n == h && t' == t && disciplined h rest
  | .sample _ t :: .wait n t' :: rest => n == h && t' == t && disciplined h rest
  | .drive _ _ _ :: _ => false
  | .sample _ _ :: _ => false

/-- DATA is sampled only while CLOCK is 1 (R34); `c` is the level of CLOCK before the trace. -/
def sampledHigh : Bit → List Event → Bool
  | _, [] => true
  | _, .drive .clock v _ :: rest => sampledHigh v rest
  | c, .drive .data _ _ :: rest => sampledHigh c rest
  | c, .sample _ _ :: rest => c && sampledHigh c rest
  | c, .wait _ _ :: rest => sampledHigh c rest

/-- The times of the line events (drives and samples) of a trace, in order (R60). -/
def lineTimes : List Event → List Nat
  | [] => []
  | .drive _ _ t :: rest => t :: lineTimes rest
  | .sample _ t :: rest => t :: lineTimes rest
  | .wait _ _ :: rest => lineTimes rest

/-- Every sample of a trace is the oracle's answer to the events before it (R34, R35). -/
abbrev Answered (p : Params) (tr : List Event) : Prop :=
  ∀ k b t, tr[k]? = some (.sample b t) → b = oracle p (tr.take k)

/-- What the trace says of the engine, kept by every step: the latches are the levels last driven (R18, R19),
time is the delay performed (R22), every event carries its time (R23), the delay discipline holds (R59),
DATA is sampled only with CLOCK high (R34), and every sample is the oracle's answer (R35). -/
structure TraceInv (s : State) : Prop where
  clockLatch : s.scl = lastLevel .clock s.params.resetScl s.trace
  dataLatch : s.sda = lastLevel .data s.params.resetSda s.trace
  clockTime : s.time = elapsed s.trace
  stamps : timed 0 s.trace = true
  delays : disciplined s.params.halfUs s.trace = true
  samples : sampledHigh s.params.resetScl s.trace = true
  answers : Answered s.params s.trace

/-- A fresh flag has been written (R21), and the lines are as its TX left them: CLOCK low, DATA released
(R69). -/
abbrev FlagInv (s : State) : Prop :=
  s.ackFresh = true → s.ack ≠ none ∧ s.scl = false ∧ s.sda = true

/-- Between commands the last line event is CLOCK driven low, DATA released, or there is none: each command that
drives a line ends so (R67 to R75). -/
abbrev AtRest (s : State) : Prop :=
  (claimScan s.trace).last ≠ some (.clock, true) ∧ (claimScan s.trace).last ≠ some (.data, false)

/-- Why a fault record stands (R83): its word is rejected with its code, or it is a READACK whose flag may not
be read. -/
abbrev FaultCause (s : State) (r : FaultRecord) : Prop :=
  decode r.word = .reject r.code ∨ (decode r.word = .command .readack ∧ readFlag s = .error r.code)

/-- The host program (R17): one response for every completed command, the index within the program, and a
fault stops the host at the faulting command, whose word and cause the record holds (R85). -/
structure HostInv (s : State) : Prop where
  responses : s.resp.length = s.pc
  index : s.pc ≤ s.program.length
  stopped : ∀ r, s.fault = some r → s.program[s.pc]? = some r.word ∧ FaultCause s r

/-- A drive of `line` to level `v`. -/
def isDriveTo (line : Line) (v : Bit) : Event → Bool
  | .drive line' v' _ => line' == line && v' == v
  | .sample _ _ => false
  | .wait _ _ => false

/-- A drive of `line`, to either level. -/
def isDriveOn (line : Line) : Event → Bool
  | .drive line' _ _ => line' == line
  | .sample _ _ => false
  | .wait _ _ => false

/-- A delay of `n` microseconds. -/
def isWaitOf (n : Nat) : Event → Bool
  | .wait n' _ => n' == n
  | .drive _ _ _ => false
  | .sample _ _ => false

/-- Command `i` completes in `s`, takes `us` microseconds of model time and records `events` events (R109). -/
abbrev Costs (i : Instr) (s : State) (us events : Nat) : Prop :=
  ∃ t, exec i s = .next t ∧ t.time = s.time + us ∧ t.trace.length = s.trace.length + events

/-- Command `i` completes in `s`, and the bus monitor, run on the events it records from the levels `s` has,
reads `toks` (R48). -/
abbrev Wire (i : Instr) (s : State) (toks : List Token) : Prop :=
  ∃ t evs, exec i s = .next t ∧ t.trace = s.trace ++ evs ∧ monitor evs s.scl s.sda = toks

/-- Two states agree on the whole engine: on every field but the host program's (R14, R17). -/
abbrev SameEngine (s t : State) : Prop :=
  t.params = s.params ∧ t.scl = s.scl ∧ t.sda = s.sda ∧ t.ack = s.ack ∧ t.ackFresh = s.ackFresh ∧
    t.time = s.time ∧ t.trace = s.trace ∧ t.fault = s.fault

end Sys2Proof.Machine
end

