-- ==== Sys2Proof/Certificates/Slice0/Obligations.lean ====
section
/-! DEFINITION. The statements about the machine: the command format, the step, every command's effect, the
faults, reset, the whole-machine rules and invariants, and what the wire shows. -/

open Sys2Proof Sys2Proof.Machine

/-! ## The command format -/

/-- 30_encoding sections 1, 2 and 5: every command's word decodes to the command, with every operand at every
value. -/
def Obligations.DecodeOfEncodeIsTheCommand : Prop :=
  ∀ i : Instr, i.wellFormed = true → decode (encode i) = .command i

/-- 30_encoding sections 1 to 3: a word the decoder accepts is the encoding of the command it gives, so no two
words spell one command. -/
def Obligations.AcceptedWordIsTheEncoding : Prop :=
  ∀ (w : Word32) (i : Instr), decode w = .command i → encode i = w

/-- R53: which words are illegal, which are reserved, what they raise when issued, that every other word spells a
command, and that no word executes as a no-op: issued to a live engine, it records a fault, adds events to the
trace, or hands over a flag. -/
def Obligations.IllegalAndReservedWords : Prop :=
  (∀ w : Word32, decode w = .reject .illegalOpcode ↔
      (w.extractLsb' 0 4).toNat ∈ [0x0, 0x9, 0xA, 0xB, 0xC, 0xD, 0xE, 0xF]) ∧
  (∀ w : Word32, decode w = .reject .reservedField ↔
      (w.extractLsb' 0 4).toNat ∈ [0x1, 0x2, 0x3, 0x4, 0x5, 0x6, 0x7, 0x8] ∧
      (w.extractLsb' 4 4 ≠ 0 ∨ w.extractLsb' 24 8 ≠ 0 ∨
        (w.extractLsb' 8 8 ≠ 0 ∧ (w.extractLsb' 0 4).toNat ∈ [0x1, 0x2, 0x3, 0x5, 0x7]) ∨
        (w.extractLsb' 16 8 ≠ 0 ∧ (w.extractLsb' 0 4).toNat ≠ 0x8))) ∧
  (∀ w : Word32, decode w ≠ .reject .illegalOpcode → decode w ≠ .reject .reservedField →
      ∃ i, decode w = .command i) ∧
  (∀ (w : Word32) (c : FaultCode) (s : State), Live s → decode w = .reject c →
      issue w s = .next { s with fault := some ⟨c, w⟩ }) ∧
  (∀ (w : Word32) (s t : State), issue w s = .next t →
      t.fault ≠ none ∨ s.trace.length < t.trace.length ∨ ∃ b, t.resp = s.resp ++ [.flag b]) ∧
  decode 0x00000000 = .reject .illegalOpcode ∧ decode 0xFFFFFFFF = .reject .illegalOpcode

/-- R51: a word selects a row of the opcode map when `word AND mask = match`, with `A = word[15:8]` and
`B = word[23:16]` as its operands; opcodes 0x0 and 0x9 to 0xF are illegal. -/
def Obligations.OpcodeMapSelectsByMaskAndMatch : Prop :=
  ∀ w : Word32,
    (decode w = .command .delay ↔ w &&& 0xFFFFFFFF = 0x00000001) ∧
    (decode w = .command .start ↔ w &&& 0xFFFFFFFF = 0x00000002) ∧
    (decode w = .command .stop ↔ w &&& 0xFFFFFFFF = 0x00000003) ∧
    (∀ v, decode w = .command (.tx v) ↔ w &&& 0xFFFF00FF = 0x00000004 ∧ v = w.extractLsb' 8 8) ∧
    (decode w = .command .rx ↔ w &&& 0xFFFFFFFF = 0x00000005) ∧
    (∀ a, decode w = .command (.sendack a) ↔ w &&& 0xFFFF00FF = 0x00000006 ∧ a = w.extractLsb' 8 8) ∧
    (decode w = .command .readack ↔ w &&& 0xFFFFFFFF = 0x00000007) ∧
    (∀ i v, decode w = .command (.write i v) ↔
      w &&& 0xFF0000FF = 0x00000008 ∧ i = w.extractLsb' 8 8 ∧ v = w.extractLsb' 16 8) ∧
    (w &&& 0xF = 0 ∨ 9 ≤ (w &&& 0xF).toNat → decode w = .reject .illegalOpcode)

/-- 95_test_vectors L2.1: words of the spec's decode vectors. -/
def Obligations.DecodeVectors : Prop :=
  decode 0x00000001 = .command .delay ∧ decode 0x00000011 = .reject .reservedField ∧
  decode 0x00000002 = .command .start ∧ decode 0x00000003 = .command .stop ∧
  decode 0x0000A504 = .command (.tx 0xA5) ∧ decode 0x0001A504 = .reject .reservedField ∧
  decode 0x00000005 = .command .rx ∧ decode 0x00000106 = .command (.sendack 1) ∧
  decode 0x00000007 = .command .readack ∧ decode 0x00000107 = .reject .reservedField ∧
  decode 0x005A0108 = .command (.write 1 90) ∧ decode 0x105A0108 = .reject .reservedField ∧
  decode 0x00000009 = .reject .illegalOpcode

/-- 30_encoding section 5: the encoder's formula, `word = OP | (A << 8) | (B << 16)`, as a number, an unused
operand being 0. -/
def Obligations.EncoderFormula : Prop :=
  ∀ i : Instr, (encode i).toNat = i.opcode.toNat + i.operandA.toNat * 2 ^ 8 + i.operandB.toNat * 2 ^ 16

/-- 20_memory section 4: a program written as a byte stream, each word least-significant byte first, reads back
as the same words. -/
def Obligations.ProgramBytesReadBack : Prop :=
  (∀ ws : List Word32, programOfBytes (programBytes ws) = some ws) ∧
  (∀ (i : Instr) (rest : List Byte), decodeBytes (encodeBytes i ++ rest) = .whole (.command i) rest) ∧
  programBytes [0x005A0108] = [0x08, 0x01, 0x5A, 0x00]

/-- R57: the pseudo-commands and their words, and no others: a statement that is none of the three stands for
at most one command. -/
def Obligations.PseudoCommandsExpand : Prop :=
  expand ⟨.ack, []⟩ = some [.sendack 0] ∧ assemble ⟨.ack, []⟩ = some [0x00000006] ∧
  expand ⟨.nack, []⟩ = some [.sendack 1] ∧ assemble ⟨.nack, []⟩ = some [0x00000106] ∧
  (∀ n, expand ⟨.wait, [n]⟩ = some (List.replicate n .delay) ∧
    assemble ⟨.wait, [n]⟩ = some (List.replicate n 0x00000001)) ∧
  assemble ⟨.wait, [0]⟩ = some [] ∧
  (∀ src is, expand src = some is → src.op ≠ .ack → src.op ≠ .nack → src.op ≠ .wait →
    ∃ i, is = [i] ∧ i.source = src)

/-- 30_encoding section 5: every command has a spelling the assembler takes, and the assembler refuses exactly the
statements with a missing operand, an operand too many, or a command's operand above 255. As text: each mnemonic in
capitals with its operands in decimal or hexadecimal, with or without a comment after it, gives the words of its
command or pseudo-command; a line with an operand out of range, missing or too many is refused. What counts as a
blank is log entry 14; the lines here use one space. -/
def Obligations.AssemblerSpellsEveryCommand : Prop :=
  (∀ i : Instr, expand i.source = some [i] ∧ assemble i.source = some [encode i]) ∧
  (∀ src : Source, assemble src = none ↔
    src.operands.length ≠ src.op.arity ∨ (src.op ≠ .wait ∧ ∃ n ∈ src.operands, 255 < n)) ∧
  (∀ (num : Nat → List Char) (tail : List Char) (a b : Byte) (k : Nat),
    num = decimal ∨ num = hexadecimal → tail = [] ∨ tail.head? = some ';' →
    assembleLine (['D', 'E', 'L', 'A', 'Y'] ++ tail) = .ok [encode .delay] ∧
    assembleLine (['S', 'T', 'A', 'R', 'T'] ++ tail) = .ok [encode .start] ∧
    assembleLine (['S', 'T', 'O', 'P'] ++ tail) = .ok [encode .stop] ∧
    assembleLine (['T', 'X', ' '] ++ num a.toNat ++ tail) = .ok [encode (.tx a)] ∧
    assembleLine (['R', 'X'] ++ tail) = .ok [encode .rx] ∧
    assembleLine (['S', 'E', 'N', 'D', 'A', 'C', 'K', ' '] ++ num a.toNat ++ tail) = .ok [encode (.sendack a)] ∧
    assembleLine (['R', 'E', 'A', 'D', 'A', 'C', 'K'] ++ tail) = .ok [encode .readack] ∧
    assembleLine (['W', 'R', 'I', 'T', 'E', ' '] ++ num a.toNat ++ [',', ' '] ++ num b.toNat ++ tail) =
      .ok [encode (.write a b)] ∧
    assembleLine (['A', 'C', 'K'] ++ tail) = .ok [0x00000006] ∧
    assembleLine (['N', 'A', 'C', 'K'] ++ tail) = .ok [0x00000106] ∧
    assembleLine (['W', 'A', 'I', 'T', ' '] ++ num k ++ tail) = .ok (List.replicate k 0x00000001) ∧
    assembleLine (['T', 'X', ' '] ++ num (256 + k) ++ tail) = .error .badOperands ∧
    assembleLine (['S', 'T', 'O', 'P', ' '] ++ num k ++ tail) = .error .badOperands ∧
    assembleLine (['W', 'R', 'I', 'T', 'E', ' '] ++ num a.toNat ++ tail) = .error .badOperands ∧
    assembleLine (['T', 'X'] ++ tail) = .error .badOperands ∧
    assembleLine (['t', 'x', ' '] ++ num a.toNat ++ tail) = .error .unknownMnemonic ∧
    assembleLine (['T', 'X', ' ', '0', 'x'] ++ tail) = .error .badNumber)

/-! ## The step -/

/-- 10_state section 2: a step of the host program issues the next word, and a word that decodes runs `exec`; the
same where the word is placed by `withFetchWord`. -/
def Obligations.StepRunsTheDecodedCommand : Prop :=
  (∀ (s : State) (w : Word32) (i : Instr), Live s → s.program[s.pc]? = some w → decode w = .command i →
    step s = exec i s) ∧
  (∀ (s : State) (nbits w : Nat) (i : Instr), Live s → decodeTableWord nbits w = some i →
    step (s.withFetchWord nbits w) = exec i (s.withFetchWord nbits w))

/-- 10_state section 2: a command that completes moves the host on by one and appends exactly one response, on
every path of every command; a fault leaves the host at the faulting command with no response. -/
def Obligations.HostProgramAdvances : Prop :=
  ∀ (s t : State) (w : Word32), s.program[s.pc]? = some w → step s = .next t →
    t.program = s.program ∧
    ((t.fault = none ∧ t.pc = s.pc + 1 ∧ ∃ r, t.resp = s.resp ++ [r]) ∨
     (t.fault ≠ none ∧ t.pc = s.pc ∧ t.resp = s.resp))

/-- The model's choice, log entry 7 (DEDUCED from R95 and R96): when the host program has ended the engine waits
and the step holds the state. -/
def Obligations.EndedProgramHoldsTheState : Prop :=
  ∀ s : State, Live s → s.program.length ≤ s.pc → step s = .next s

/-- R33 and R37: a drive is recorded and takes effect whatever the line's level, a wait passes time; each
appends exactly one event and touches nothing else. -/
def Obligations.DriveAndWaitPrimitives : Prop :=
  (∀ (v : Bit) (s : State),
    drive .clock v s = { s with scl := v, trace := s.trace ++ [.drive .clock v s.time] }) ∧
  (∀ (v : Bit) (s : State),
    drive .data v s = { s with sda := v, trace := s.trace ++ [.drive .data v s.time] }) ∧
  (∀ (n : Nat) (s : State), wait n s = { s with time := s.time + n, trace := s.trace ++ [.wait n s.time] }) ∧
  (∀ s : State, half s = wait s.params.halfUs s)

/-- 20_memory section 2: a sample records one event and touches nothing else; its bit is the oracle's answer to the
events so far, whatever levels the lines have. Where the instance fixes the answer (log entry 4) it is that bit;
where it fixes none, its script being empty or used up, it is the free value. -/
def Obligations.SampleAsksTheEnvironment : Prop :=
  (∀ s : State, sample s = { s with trace := s.trace ++ [.sample (answer s) s.time] }) ∧
  (∀ s t : State, t.params = s.params → t.trace = s.trace → answer t = answer s) ∧
  (∀ s : State, s.params.script[sampleCount s.trace]? = none → answer s = Config.oracle s.trace) ∧
  (∀ (s : State) (b : Bit), s.params.script[sampleCount s.trace]? = some b → answer s = b)

/-! ## The commands -/

/-- 40_timing section 2: DELAY completes; it passes one half period, records one event and changes nothing else
of the engine, the flag and its freshness included. -/
def Obligations.DelayPassesOneHalfPeriod : Prop :=
  ∀ s : State, Live s →
    exec .delay s = .next { s with
      time := s.time + s.params.halfUs
      trace := s.trace ++ [.wait s.params.halfUs s.time]
      resp := s.resp ++ [.nothing]
      pc := s.pc + 1 }

/-- 41_bus_protocol section 2: START completes from every line level: `D0 C0`, both lines end low, the flag is
stale, its value and everything else unchanged. -/
def Obligations.StartClaimsTheBus : Prop :=
  ∀ s : State, Live s →
    exec .start s = .next { s with
      scl := false
      sda := false
      ackFresh := false
      time := s.time + 2 * s.params.halfUs
      trace := s.trace ++ pacedFrom s [.drive .data false, .drive .clock false]
      resp := s.resp ++ [.nothing]
      pc := s.pc + 1 }

/-- 41_bus_protocol section 3: STOP completes from every line level: `D0 C1 D1`, both lines end high, the flag is
stale, its value and everything else unchanged. -/
def Obligations.StopReleasesTheBus : Prop :=
  ∀ s : State, Live s →
    exec .stop s = .next { s with
      scl := true
      sda := true
      ackFresh := false
      time := s.time + 3 * s.params.halfUs
      trace := s.trace ++ pacedFrom s [.drive .data false, .drive .clock true, .drive .data true]
      resp := s.resp ++ [.nothing]
      pc := s.pc + 1 }

/-- 41_bus_protocol section 4: TX completes for every byte and from every line level. It drives bits 7 to 0, each
with one CLOCK pulse, releases DATA, raises CLOCK, samples, and lowers CLOCK; the flag is ACK exactly when the
oracle's answer at that point is 0; nothing else changes. The sample is a free value: the statement holds for
every oracle. -/
def Obligations.TxSendsTheByteAndSamplesTheAck : Prop :=
  ∀ (v : Byte) (s : State), Live s →
    exec (.tx v) s = .next { s with
      scl := false
      sda := true
      ack := some (!answerAfter s (txLeadActs v))
      ackFresh := true
      time := s.time + 28 * s.params.halfUs
      trace := s.trace ++ pacedFrom s
        (([7, 6, 5, 4, 3, 2, 1, 0].flatMap fun k =>
            [.drive .data (v.getLsbD k), .drive .clock true, .drive .clock false]) ++
          [.drive .data true, .drive .clock true, .sample (answerAfter s (txLeadActs v)), .drive .clock false])
      resp := s.resp ++ [.nothing]
      pc := s.pc + 1 }

/-- R71: whatever the byte and whatever the oracle answers, TX records 9 drives of CLOCK to 1, 9 to 0, 9 drives of
DATA, 1 sample and 28 half-period waits, and no other event. -/
def Obligations.TxEventCounts : Prop :=
  ∀ (v : Byte) (s : State), Live s →
    ∃ t evs, exec (.tx v) s = .next t ∧ t.trace = s.trace ++ evs ∧ evs.length = 56 ∧
      evs.countP (isDriveTo .clock true) = 9 ∧ evs.countP (isDriveTo .clock false) = 9 ∧
      evs.countP (isDriveOn .data) = 9 ∧ evs.countP isSample = 1 ∧
      evs.countP (isWaitOf s.params.halfUs) = 28

/-- 41_bus_protocol section 5: RX completes from every line level. There are eight bits, each the oracle's answer
after the bits before it; the response is the byte whose bit 7 is the first sample; CLOCK ends low, DATA is never
driven, the flag keeps its value and is stale; nothing else changes. -/
def Obligations.RxReceivesTheSampledByte : Prop :=
  ∀ s : State, Live s →
    ∃ (bs : List Bit) (r : Byte), bs.length = 8 ∧
      (∀ k, k < 8 → bs[k]? = some (answerAfter s (rxLeadActs (bs.take k))) ∧ bs[k]? = some (r.getLsbD (7 - k))) ∧
      exec .rx s = .next { s with
        scl := false
        ackFresh := false
        time := s.time + 25 * s.params.halfUs
        trace := s.trace ++ pacedFrom s
          ((bs.flatMap fun b => [.drive .clock false, .drive .clock true, .sample b]) ++ [.drive .clock false])
        resp := s.resp ++ [.byte r]
        pc := s.pc + 1 }

/-- 41_bus_protocol section 6: SENDACK completes for every operand and from every line level: DATA low for 0 and
high for every other value, one CLOCK pulse, the flag's value kept and stale; nothing else changes. -/
def Obligations.SendackDrivesTheAckBit : Prop :=
  ∀ (a : Byte) (s : State), Live s →
    exec (.sendack a) s = .next { s with
      scl := false
      sda := if a = 0 then false else true
      ackFresh := false
      time := s.time + 3 * s.params.halfUs
      trace := s.trace ++ pacedFrom s
        [.drive .data (if a = 0 then false else true), .drive .clock true, .drive .clock false]
      resp := s.resp ++ [.nothing]
      pc := s.pc + 1 }

/-- 41_bus_protocol section 7: READACK completes while the flag is written and fresh; it hands over the flag and
changes nothing of the engine, so that a second READACK gives the same flag. -/
def Obligations.ReadackGivesTheFreshFlag : Prop :=
  ∀ (s : State) (b : Bool), Live s → s.ack = some b → s.ackFresh = true →
    exec .readack s = .next { s with resp := s.resp ++ [.flag b], pc := s.pc + 1 } ∧
    ∃ t u, exec .readack s = .next t ∧ exec .readack t = .next u ∧ u.resp = s.resp ++ [.flag b, .flag b]

/-- 60_exceptions sections 2 and 3: READACK takes ACK_UNWRITTEN where no TX has run and ACK_STALE where a written
flag is not fresh; the record holds READACK's word; nothing else changes and no response is given. -/
def Obligations.ReadackFaults : Prop :=
  (∀ s : State, Live s → s.ack = none →
    exec .readack s = .next { s with fault := some ⟨.ackUnwritten, 0x00000007⟩ }) ∧
  (∀ s : State, Live s → s.ack ≠ none → s.ackFresh = false →
    exec .readack s = .next { s with fault := some ⟨.ackStale, 0x00000007⟩ })

/-- 42_transaction sections 1 and 2: a WRITE whose three bytes are acknowledged completes with START, the device
address, the index, the value, STOP and one settle wait; nothing else changes. -/
def Obligations.WriteRunsWhenAcknowledged : Prop :=
  ∀ (i v : Byte) (s : State), Live s → DeviceAcks s i v →
    exec (.write i v) s = .next { s with
      scl := true
      sda := true
      ack := some true
      ackFresh := false
      time := s.time + 89 * s.params.halfUs + s.params.settleCount * s.params.settleUnitUs
      trace := s.trace ++
        pacedFrom s (startActs ++ txActs s.params.devAddr false ++ txActs i false ++ txActs v false ++ stopActs) ++
        [.wait (s.params.settleCount * s.params.settleUnitUs) (s.time + 89 * s.params.halfUs)]
      resp := s.resp ++ [.flag true]
      pc := s.pc + 1 }

/-- 42_transaction sections 1 and 2: a WRITE whose byte `k` is the first not acknowledged completes there, with no
STOP and no settle delay, and answers 0; nothing else changes. -/
def Obligations.WriteRunsWhenRefused : Prop :=
  ∀ (i v : Byte) (k : Nat) (s : State), Live s → DeviceNacksAt s i v k →
    exec (.write i v) s = .next { s with
      scl := false
      sda := true
      ack := some false
      ackFresh := true
      time := s.time + (2 + 28 * k) * s.params.halfUs
      trace := s.trace ++ pacedFrom s
        (startActs ++ (([s.params.devAddr, i, v].take (k - 1)).flatMap fun x => txActs x false) ++
          txActs ([s.params.devAddr, i, v].getD (k - 1) 0) true)
      resp := s.resp ++ [.flag false]
      pc := s.pc + 1 }

/-- R76: the end state of an acknowledged WRITE, its event count, its response, and what the bus monitor reads of
it from every line level: a START condition only from an idle bus. -/
def Obligations.WriteAcknowledgedEndState : Prop :=
  ∀ (i v : Byte) (s : State), Live s → DeviceAcks s i v →
    (∃ t, exec (.write i v) s = .next t ∧ t.scl = true ∧ t.sda = true ∧ t.ack = some true ∧ t.ackFresh = false ∧
      t.time = s.time + (89 * s.params.halfUs + settleUs s.params) ∧
      t.trace.length = s.trace.length + 179 ∧ t.resp = s.resp ++ [.flag true]) ∧
    Wire (.write i v) s
      ((if s.scl = true ∧ s.sda = true then [.start] else []) ++
        [.byte s.params.devAddr false, .byte i false, .byte v false, .stop])

/-- R77: the end state of a WRITE refused at byte `k`, its events and their count, its response: the bytes after
byte `k` are not sent, no STOP is issued and no wait but half periods is performed; the monitor reads the bytes up to
byte `k` and no STOP, after a START condition only from an idle bus. -/
def Obligations.WriteRefusedEndState : Prop :=
  ∀ (i v : Byte) (k : Nat) (s : State), Live s → DeviceNacksAt s i v k →
    (∃ t evs, exec (.write i v) s = .next t ∧ t.trace = s.trace ++ evs ∧
      t.scl = false ∧ t.sda = true ∧ t.ack = some false ∧ t.ackFresh = true ∧
      t.time = s.time + (2 + 28 * k) * s.params.halfUs ∧ evs.length = 4 + 56 * k ∧
      evs = pacedFrom s (writeAbortActs s.params i v k) ∧
      2 * evs.countP (isWaitOf s.params.halfUs) = evs.length ∧ t.resp = s.resp ++ [.flag false]) ∧
    Wire (.write i v) s
      ((if s.scl = true ∧ s.sda = true then [.start] else []) ++
        (([s.params.devAddr, i, v].take (k - 1)).map fun x => Token.byte x false) ++
        [.byte ([s.params.devAddr, i, v].getD (k - 1) 0) true])

/-- R80: a WRITE in a live engine always completes without a fault, and answers 1 exactly when all three bytes are
acknowledged; a missing acknowledge is its one way to fail, and the response does not say which byte it was. -/
def Obligations.WriteFailsOnlyOnAMissingAcknowledge : Prop :=
  ∀ (i v : Byte) (s : State), Live s →
    ∃ t b, exec (.write i v) s = .next t ∧ t.fault = none ∧ t.resp = s.resp ++ [.flag b] ∧
      (b = true ↔ DeviceAcks s i v) ∧ (b = false ↔ ∃ k, DeviceNacksAt s i v k)

/-- 40_timing section 1: in a live engine every command ends, with a next state; only READACK can take a fault. -/
def Obligations.EveryCommandEnds : Prop :=
  ∀ (i : Instr) (s : State), Live s → ∃ t, exec i s = .next t ∧ (i ≠ .readack → t.fault = none)

/-! ## Faults and reset -/

/-- R83: the four codes, and no other; a step of a live engine records each fault exactly when the word issued has its
cause; the record is that code and that word, and it is taken before any primitive has run. -/
def Obligations.FaultCausesAndRecord : Prop :=
  ([FaultCode.illegalOpcode, .reservedField, .ackUnwritten, .ackStale].map FaultCode.number = [1, 2, 3, 4]) ∧
  (∀ c : FaultCode, c.number ∈ [(1 : Byte), 2, 3, 4]) ∧
  ∀ (s : State) (w : Word32), Live s → s.program[s.pc]? = some w →
    ∃ t, step s = .next t ∧
      (t.fault = some ⟨.illegalOpcode, w⟩ ↔ (w.extractLsb' 0 4).toNat = 0 ∨ 9 ≤ (w.extractLsb' 0 4).toNat) ∧
      (t.fault = some ⟨.reservedField, w⟩ ↔
        (1 ≤ (w.extractLsb' 0 4).toNat ∧ (w.extractLsb' 0 4).toNat ≤ 8) ∧
        (w.extractLsb' 4 4 ≠ 0 ∨ w.extractLsb' 24 8 ≠ 0 ∨
          (w.extractLsb' 8 8 ≠ 0 ∧ (w.extractLsb' 0 4).toNat ∉ [4, 6, 8]) ∨
          (w.extractLsb' 16 8 ≠ 0 ∧ (w.extractLsb' 0 4).toNat ≠ 8))) ∧
      (t.fault = some ⟨.ackUnwritten, w⟩ ↔ w = 0x00000007 ∧ s.ack = none) ∧
      (t.fault = some ⟨.ackStale, w⟩ ↔ w = 0x00000007 ∧ s.ack ≠ none ∧ s.ackFresh = false) ∧
      (∀ r, t.fault = some r → r.word = w ∧ t = { s with fault := some r })

/-- R85: fault entry writes the record and nothing else: a rejected word, and a READACK whose flag may not be
read; from then on the engine is stuck: no command executes and the host program stops. -/
def Obligations.FaultEntryIsPreciseAndStuck : Prop :=
  (∀ (s : State) (w : Word32) (c : FaultCode), Live s → s.program[s.pc]? = some w → decode w = .reject c →
    step s = .next { s with fault := some ⟨c, w⟩ }) ∧
  (∀ (s t : State) (i : Instr) (r : FaultRecord), exec i s = .next t → t.fault = some r →
    t = { s with fault := some r }) ∧
  (∀ (s : State) (r : FaultRecord), s.fault = some r →
    step s = .fault (.stuck r) ∧ ∀ i, exec i s = .fault (.stuck r))

/-- R86: no step and no command leaves or overwrites a fault: each answers a next state only from a live engine;
reset clears it. -/
def Obligations.OnlyResetClearsAFault : Prop :=
  (∀ s t : State, step s = .next t → s.fault = none) ∧
  (∀ (i : Instr) (s t : State), exec i s = .next t → s.fault = none) ∧
  (∀ s : State, (engineReset s).fault = none)

/-- R96: reset puts every engine field at its reset value, for every parameters, with no event, and changes
no parameter; reset of a running engine does the same in every state, faulted or not, and gives no
response. -/
def Obligations.ResetValues : Prop :=
  (∀ p : Params, FreshReset (State.resetWith p) ∧ (State.resetWith p).scl = p.resetScl ∧
    (State.resetWith p).sda = p.resetSda ∧ (State.resetWith p).params = p) ∧
  (∀ s : State, FreshReset (engineReset s) ∧ (engineReset s).scl = s.params.resetScl ∧
    (engineReset s).sda = s.params.resetSda ∧ (engineReset s).params = s.params ∧ (engineReset s).resp = s.resp)

/-- The model's choice, log entries 2, 3 and 6 (DESIGN CHOICE): the state the machine starts from is the reset of
the default parameters, with both lines idle high, no program loaded and no response given. -/
def Obligations.ResetStateOfTheModel : Prop :=
  State.reset = State.resetWith Params.default ∧ Params.default.wellFormed = true ∧ BusIdle Params.default ⟨true, true⟩ ∧
  State.reset.program = [] ∧ State.reset.pc = 0 ∧ State.reset.resp = [] ∧
  Params.default.halfUs = 100 ∧ settleUs Params.default = 100000 ∧ Params.default.devAddr = 0x5A

/-! ## Rules of the whole machine -/

/-- R30: the state each command writes and what it leaves unchanged, row by row; every command leaves the
parameters and the host's program alone, and a command word that faults, at decode or in READACK, changes nothing
but the record. -/
def Obligations.TableOfWrittenState : Prop :=
  (∀ (w : Word32) (s t : State), issue w s = .next t → t.fault ≠ none → t = { s with fault := t.fault }) ∧
  ∀ (i : Instr) (s t : State), exec i s = .next t →
    t.params = s.params ∧ t.program = s.program ∧
    (t.fault ≠ none → t = { s with fault := t.fault }) ∧
    (t.fault = none →
      match i with
      | .delay => t.scl = s.scl ∧ t.sda = s.sda ∧ t.ack = s.ack ∧ t.ackFresh = s.ackFresh ∧
          t.time = s.time + s.params.halfUs ∧ t.trace.length = s.trace.length + 1
      | .start => t.scl = false ∧ t.sda = false ∧ t.ack = s.ack ∧ t.ackFresh = false ∧
          t.time = s.time + 2 * s.params.halfUs ∧ t.trace.length = s.trace.length + 4
      | .stop => t.scl = true ∧ t.sda = true ∧ t.ack = s.ack ∧ t.ackFresh = false ∧
          t.time = s.time + 3 * s.params.halfUs ∧ t.trace.length = s.trace.length + 6
      | .tx v => t.scl = false ∧ t.sda = true ∧ t.ack = some (!answerAfter s (txLeadActs v)) ∧
          t.ackFresh = true ∧ t.time = s.time + 28 * s.params.halfUs ∧ t.trace.length = s.trace.length + 56
      | .rx => t.scl = false ∧ t.sda = s.sda ∧ t.ack = s.ack ∧ t.ackFresh = false ∧
          t.time = s.time + 25 * s.params.halfUs ∧ t.trace.length = s.trace.length + 50
      | .sendack a => t.scl = false ∧ t.sda = decide (a ≠ 0) ∧ t.ack = s.ack ∧ t.ackFresh = false ∧
          t.time = s.time + 3 * s.params.halfUs ∧ t.trace.length = s.trace.length + 6
      | .readack => t.scl = s.scl ∧ t.sda = s.sda ∧ t.ack = s.ack ∧ t.ackFresh = s.ackFresh ∧
          t.time = s.time ∧ t.trace = s.trace
      | .write _ _ => t.sda = true ∧ t.ack = some t.scl ∧ t.ackFresh = !t.scl)

/-- R21: which commands make the flag fresh, which make it stale, and which leave it; WRITE as its START, TX and
STOP steps do; stale at reset; and the freshness changes only whether READACK may read the flag: with another
freshness every other command does the same. -/
def Obligations.FreshnessOfTheFlag : Prop :=
  (∀ (v : Byte) (s t : State), exec (.tx v) s = .next t → t.ackFresh = true) ∧
  (∀ (i : Instr) (s t : State), (i = .start ∨ i = .stop ∨ i = .rx ∨ ∃ a, i = .sendack a) → exec i s = .next t →
    t.ackFresh = false ∧ t.ack = s.ack) ∧
  (∀ (i : Instr) (s t : State), (i = .delay ∨ i = .readack) → exec i s = .next t →
    t.ackFresh = s.ackFresh ∧ t.ack = s.ack) ∧
  (∀ (x v : Byte) (s t : State), exec (.write x v) s = .next t →
    (t.resp = s.resp ++ [.flag true] → t.ackFresh = false) ∧
    (t.resp = s.resp ++ [.flag false] → t.ackFresh = true)) ∧
  (∀ (i : Instr) (s t : State) (f : Bool), i ≠ .readack → exec i s = .next t →
    exec i { s with ackFresh := f } = .next { t with ackFresh := if i = .delay then f else t.ackFresh }) ∧
  State.reset.ackFresh = false

/-- 10_state section 4 and 70_reset_and_hazards section 3: what a READACK gets after each command: the TX's own
result, also with a DELAY between; ACK_STALE after a bus call; after a WRITE, ACK_STALE if it succeeded and 0 if
it failed. -/
def Obligations.ReadackAfterEachCommand : Prop :=
  (∀ (v : Byte) (s : State), Live s → ∃ t d, exec (.tx v) s = .next t ∧ exec .delay t = .next d ∧
    exec .readack t = .next { t with
      resp := t.resp ++ [.flag (!answerAfter s (txLeadActs v))], pc := t.pc + 1 } ∧
    exec .readack d = .next { d with
      resp := d.resp ++ [.flag (!answerAfter s (txLeadActs v))], pc := d.pc + 1 }) ∧
  (∀ (i : Instr) (s t : State), (i = .start ∨ i = .stop ∨ i = .rx ∨ ∃ a, i = .sendack a) → s.ack ≠ none →
    exec i s = .next t → exec .readack t = .next { t with fault := some ⟨.ackStale, 0x00000007⟩ }) ∧
  (∀ (x v : Byte) (s t : State), exec (.write x v) s = .next t →
    (t.resp = s.resp ++ [.flag true] → exec .readack t = .next { t with fault := some ⟨.ackStale, 0x00000007⟩ }) ∧
    (t.resp = s.resp ++ [.flag false] →
      exec .readack t = .next { t with resp := t.resp ++ [.flag false], pc := t.pc + 1 }))

/-- R59: inside START, STOP, TX, RX and SENDACK every drive and every sample is followed at once by exactly one
half-period wait: the events are line events, each with its wait, and nothing else. -/
def Obligations.DelayFollowsEveryLineEvent : Prop :=
  ∀ (i : Instr) (s : State), Live s →
    (i = .start ∨ i = .stop ∨ (∃ v, i = .tx v) ∨ i = .rx ∨ ∃ a, i = .sendack a) →
    ∃ t acts, exec i s = .next t ∧ t.trace = s.trace ++ paced s.params.halfUs s.time acts

/-- 70_reset_and_hazards section 4: the model time and the event count of every command, READACK's in the states
where it completes and where it faults. -/
def Obligations.TimingTable : Prop :=
  ∀ s : State, Live s →
    Costs .delay s (1 * s.params.halfUs) 1 ∧
    Costs .start s (2 * s.params.halfUs) 4 ∧
    Costs .stop s (3 * s.params.halfUs) 6 ∧
    (∀ v, Costs (.tx v) s (28 * s.params.halfUs) 56) ∧
    Costs .rx s (25 * s.params.halfUs) 50 ∧
    (∀ a, Costs (.sendack a) s (3 * s.params.halfUs) 6) ∧
    Costs .readack s 0 0 ∧
    (∀ i v, DeviceAcks s i v → Costs (.write i v) s (89 * s.params.halfUs + settleUs s.params) 179) ∧
    (∀ i v k, DeviceNacksAt s i v k → Costs (.write i v) s ((2 + 28 * k) * s.params.halfUs) (4 + 56 * k))

/-- R65: no command checks the line levels it starts from: from any other levels it records the same events at the
same times, gives the same response and the same flag, and faults no differently. -/
def Obligations.EntryLevelsDoNotMatter : Prop :=
  ∀ (i : Instr) (s t : State) (c d : Bit), exec i s = .next t →
    ∃ u, exec i { s with scl := c, sda := d } = .next u ∧ u.trace = t.trace ∧ u.time = t.time ∧
      u.ack = t.ack ∧ u.ackFresh = t.ackFresh ∧ u.resp = t.resp ∧ u.pc = t.pc ∧ u.fault = t.fault

/-- 10_state section 2 and 20_memory section 5: the engine does not see the host's program, index or earlier
responses: with any others it does the same and gives the same response. -/
def Obligations.HostProgramIsInvisible : Prop :=
  ∀ (i : Instr) (s t : State) (ws : List Word32) (k : Nat) (rs : List Response), exec i s = .next t →
    ∃ u new, exec i { s with program := ws, pc := k, resp := rs } = .next u ∧ SameEngine t u ∧
      t.resp = s.resp ++ new ∧ u.resp = rs ++ new

/-- 10_state section 5: a step only ever adds to the trace and to the time, and never changes the parameters or
the host's program. -/
def Obligations.StepOnlyAddsToTheTrace : Prop :=
  ∀ s t : State, step s = .next t →
    t.params = s.params ∧ t.program = s.program ∧
    ∃ evs, t.trace = s.trace ++ evs ∧ t.time = s.time + elapsed evs

/-- 41_bus_protocol section 2: no command but a STOP, or a WRITE that succeeds with its own STOP, leaves CLOCK high
where it was not high before. -/
def Obligations.OnlyStopLeavesClockHigh : Prop :=
  ∀ (i : Instr) (s t : State), exec i s = .next t → t.scl = true →
    i = .stop ∨ (∃ x v, i = .write x v ∧ t.resp = s.resp ++ [.flag true]) ∨
      ((i = .delay ∨ i = .readack) ∧ s.scl = true)

/-! ## Invariants -/

/-- 10_state sections 3 and 5, 20_memory section 2, 40_timing section 1: every step keeps the trace invariant. -/
def Obligations.StepKeepsTraceInv : Prop :=
  ∀ s t : State, TraceInv s → step s = .next t → TraceInv t

/-- 10_state section 4: every step keeps the flag invariant. -/
def Obligations.StepKeepsFlagInv : Prop :=
  ∀ s t : State, FlagInv s → step s = .next t → FlagInv t

/-- 10_state section 2 and 60_exceptions section 3: every step keeps the host program's invariant. -/
def Obligations.StepKeepsHostInv : Prop :=
  ∀ s t : State, HostInv s → step s = .next t → HostInv t

/-- R67 to R75: every step keeps the engine at rest between commands: the last line event is CLOCK driven low,
DATA released, or there is none. -/
def Obligations.StepKeepsAtRest : Prop :=
  ∀ s t : State, AtRest s → step s = .next t → AtRest t

/-- The four invariants hold right after reset, for every parameters and with any program loaded. -/
def Obligations.ResetMeetsTheInvariants : Prop :=
  ∀ (p : Params) (ws : List Word32),
    TraceInv (loadProgram ws (State.resetWith p)) ∧ FlagInv (loadProgram ws (State.resetWith p)) ∧
    HostInv (loadProgram ws (State.resetWith p)) ∧ AtRest (loadProgram ws (State.resetWith p))

/-- 40_timing section 1: wherever the trace invariant holds, two line events lie at least a half period apart, in
one command or across commands, and the last lies at least a half period before now; so they do after a step. -/
def Obligations.LineEventsAreAHalfPeriodApart : Prop :=
  ∀ s : State, TraceInv s →
    (lineTimes s.trace).Pairwise (fun a b => a + s.params.halfUs ≤ b) ∧
    (∀ a ∈ lineTimes s.trace, a + s.params.halfUs ≤ s.time) ∧
    (∀ t, step s = .next t → (lineTimes t.trace).Pairwise fun a b => a + s.params.halfUs ≤ b)

/-- R79: the last line event of a successful WRITE is its STOP's release of DATA, followed by the half period and
the settle delay, and the next command's first line event comes no earlier; after a WRITE that aborts the next
command may start a half period after its last line event. -/
def Obligations.SettleSeparatesTransactions : Prop :=
  ∀ (x v : Byte) (s t : State), exec (.write x v) s = .next t →
    ∃ evs e, t.trace = s.trace ++ evs ∧ (lineTimes evs).getLast? = some e ∧
      (t.resp = s.resp ++ [.flag true] →
        t.time = e + (s.params.halfUs + settleUs s.params) ∧
        ∃ before, evs = before ++
          [.drive .data true e, .wait s.params.halfUs e, .wait (settleUs s.params) (e + s.params.halfUs)]) ∧
      (t.resp = s.resp ++ [.flag false] → t.time = e + s.params.halfUs) ∧
      (∀ (i : Instr) (u : State), exec i t = .next u →
        ∃ more, u.trace = t.trace ++ more ∧ (∀ f ∈ lineTimes more, t.time ≤ f) ∧
          (i ≠ .delay → i ≠ .readack → (lineTimes more).head? = some t.time))

/-- 70_reset_and_hazards section 1: the premises of a run. Under NoFault the run of a host program goes on to the
program's end, one command and one response a step. Under DeviceAcks no state of the run has a NACK, no response is
a failure, every TX ends with ACK and every WRITE meets its own three acknowledges. -/
def Obligations.PremisesOfARun : Prop :=
  (∀ (s : State) (n : Nat), RunNoFault s → s.pc + n ≤ s.program.length →
    ∃ t, runFor n s = some t ∧ t.pc = s.pc + n ∧ t.resp.length = s.resp.length + n ∧ t.program = s.program) ∧
  (∀ s : State, RunDeviceAcks s → s.ack ≠ some false → .flag false ∉ s.resp →
    ∀ (n : Nat) (t : State), runFor n s = some t →
      t.ack ≠ some false ∧ .flag false ∉ t.resp ∧
      ∀ w, Live t → t.program[t.pc]? = some w →
        (∀ v, decode w = .command (.tx v) → ∃ u, step t = .next u ∧ u.ack = some true) ∧
        (∀ i v, decode w = .command (.write i v) → DeviceAcks t i v ∧
          ∃ u, step t = .next u ∧ u.resp = t.resp ++ [.flag true]))

/-! ## What the wire shows -/

/-- 41_bus_protocol sections 2 and 3: the conditions START and STOP put on the wire from each of the four line
levels; right after reset under BusIdle the bus is idle and START makes its START condition. The device's lines are
an argument of that premise, log entry 17. -/
def Obligations.StartAndStopOnTheWire : Prop :=
  (∀ s : State, Live s →
    Wire .start s (if s.scl = true ∧ s.sda = true then [.start] else []) ∧
    Wire .stop s (if s.scl = true ∧ s.sda = true then [.start, .stop] else [.stop])) ∧
  (∀ (p : Params) (d : DeviceLines), BusIdle p d →
    idle (State.resetWith p) = true ∧ Wire .start (State.resetWith p) [.start])

/-- 20_memory section 6: the bus is claimed while CLOCK is 0 after a START with no STOP since. START claims it from
every line level, and so does the START of a WRITE that is aborted; STOP and a successful WRITE end the claim; the
other commands neither begin nor end one, from a state at rest between commands; right after reset nothing is
claimed, whatever the line levels. That "a START" is one performed, as a command or by a WRITE, is the model's
reading, log entry 16. -/
def Obligations.ClaimedFromStartToStop : Prop :=
  (∀ s : State, claimed s = true ↔ s.scl = false ∧ started s.trace = true) ∧
  (∀ p : Params, claimed (State.resetWith p) = false) ∧
  (∀ s : State, claimed (engineReset s) = false) ∧
  (∀ s t : State, exec .start s = .next t → claimed t = true) ∧
  (∀ s t : State, exec .stop s = .next t → claimed t = false ∧ started t.trace = false) ∧
  (∀ (x v : Byte) (s t : State), exec (.write x v) s = .next t →
    (t.resp = s.resp ++ [.flag false] → claimed t = true) ∧
    (t.resp = s.resp ++ [.flag true] → claimed t = false ∧ started t.trace = false)) ∧
  (∀ (i : Instr) (s t : State), AtRest s →
    (i = .delay ∨ (∃ v, i = .tx v) ∨ i = .rx ∨ (∃ a, i = .sendack a) ∨ i = .readack) →
    exec i s = .next t → started t.trace = started s.trace)

/-- 41_bus_protocol section 4: from CLOCK low, TX puts one frame on the wire: the byte, most significant bit first,
and the acknowledge bit sampled. -/
def Obligations.TxIsOneFrameOnTheWire : Prop :=
  ∀ (v : Byte) (s : State), Live s → s.scl = false →
    Wire (.tx v) s [.byte v (answerAfter s (txLeadActs v))]

/-- 41_bus_protocol section 4, corner cases: from CLOCK high, bit 7 gets no slot; its drive is a START condition
from DATA high to 0, a STOP condition from DATA low to 1; the device sees bits 6 to 0 and the acknowledge slot. -/
def Obligations.TxFromClockHighLosesBitSeven : Prop :=
  ∀ (v : Byte) (s : State), Live s → s.scl = true →
    Wire (.tx v) s
      ((if s.sda = true ∧ v.getLsbD 7 = false then [.start]
        else if s.sda = false ∧ v.getLsbD 7 = true then [.stop] else []) ++
        [.unfinished [v.getLsbD 6, v.getLsbD 5, v.getLsbD 4, v.getLsbD 3, v.getLsbD 2, v.getLsbD 1, v.getLsbD 0,
          answerAfter s (txLeadActs v)]])

/-- 41_bus_protocol section 6: what SENDACK puts on the wire: one bit slot from CLOCK low; from CLOCK high no slot,
and a START or STOP condition where DATA changes. -/
def Obligations.SendackOnTheWire : Prop :=
  ∀ (a : Byte) (s : State), Live s →
    Wire (.sendack a) s
      (if s.scl = false then [.unfinished [if a = 0 then false else true]]
       else if s.sda = true ∧ a = 0 then [.start]
       else if s.sda = false ∧ a ≠ 0 then [.stop] else [])

/-- 41_bus_protocol sections 5 and 6: with DATA released, the byte an RX receives and the acknowledge bit a SENDACK
after it sends are one frame on the wire. -/
def Obligations.RxAndSendackAreOneFrame : Prop :=
  ∀ (a : Byte) (s : State), Live s → s.sda = true →
    ∃ t u r evs, exec .rx s = .next t ∧ exec (.sendack a) t = .next u ∧ t.resp = s.resp ++ [.byte r] ∧
      u.trace = s.trace ++ evs ∧ monitor evs s.scl s.sda = [.byte r (if a = 0 then false else true)]

/-- R78: after an aborted WRITE the lines are (0, 1); the next START, or the START of the next WRITE, makes no
START condition, and the device sees the address byte with no START before it. -/
def Obligations.AbortedWriteSpoilsTheNextStart : Prop :=
  ∀ (i v : Byte) (s t : State), exec (.write i v) s = .next t → t.resp = s.resp ++ [.flag false] →
    t.scl = false ∧ t.sda = true ∧ Wire .start t [] ∧
    (∀ x y, DeviceAcks t x y →
      Wire (.write x y) t [.byte t.params.devAddr false, .byte x false, .byte y false, .stop]) ∧
    (∀ x y k, DeviceNacksAt t x y k → ∃ rest,
      Wire (.write x y) t rest ∧ rest.head? = some (.byte t.params.devAddr (decide (k = 1))) ∧ Token.start ∉ rest)

/-- 70_reset_and_hazards section 3: after an aborted WRITE a STOP puts exactly one STOP condition on the wire and
leaves the bus idle, so that the next START makes its START condition. -/
def Obligations.StopRecoversAnAbortedWrite : Prop :=
  ∀ (i v : Byte) (s t : State), exec (.write i v) s = .next t → t.resp = s.resp ++ [.flag false] →
    Wire .stop t [.stop] ∧ ∃ u, exec .stop t = .next u ∧ idle u = true ∧ Wire .start u [.start]

/-- 95_test_vectors L1.1: where the environment acknowledges a TX and then plays its bits back, the RX that follows
receives the byte sent. The environment's nine answers are fixed by the script of the instance (log entry 4). -/
def Obligations.RoundTripOnAReplayedLine : Prop :=
  ∀ (v : Byte) (s : State) (rest : List Bit), Live s →
    s.params.script.drop (sampleCount s.trace) =
      false :: ([7, 6, 5, 4, 3, 2, 1, 0].map fun k => v.getLsbD k) ++ rest →
    ∃ t u, exec (.tx v) s = .next t ∧ exec .rx t = .next u ∧ u.ack = some true ∧ u.ackFresh = false ∧
      u.resp = s.resp ++ [.nothing, .byte v]
end

