-- ==== Sys2Proof/Laws/State.lean ====
section
/-! SUPPORT. What each named operation does to each field of the state, so that no later proof unfolds an
update. -/

namespace Sys2Proof.Machine

variable (s : State)

@[simp] theorem drive_clock_params (v : Bit) : (drive .clock v s).params = s.params := rfl
@[simp] theorem drive_clock_scl (v : Bit) : (drive .clock v s).scl = v := rfl
@[simp] theorem drive_clock_sda (v : Bit) : (drive .clock v s).sda = s.sda := rfl
@[simp] theorem drive_clock_ack (v : Bit) : (drive .clock v s).ack = s.ack := rfl
@[simp] theorem drive_clock_ackFresh (v : Bit) : (drive .clock v s).ackFresh = s.ackFresh := rfl
@[simp] theorem drive_clock_time (v : Bit) : (drive .clock v s).time = s.time := rfl
@[simp] theorem drive_clock_trace (v : Bit) : (drive .clock v s).trace = s.trace ++ [.drive .clock v s.time] := rfl
@[simp] theorem drive_clock_fault (v : Bit) : (drive .clock v s).fault = s.fault := rfl
@[simp] theorem drive_clock_program (v : Bit) : (drive .clock v s).program = s.program := rfl
@[simp] theorem drive_clock_pc (v : Bit) : (drive .clock v s).pc = s.pc := rfl
@[simp] theorem drive_clock_resp (v : Bit) : (drive .clock v s).resp = s.resp := rfl

@[simp] theorem drive_data_params (v : Bit) : (drive .data v s).params = s.params := rfl
@[simp] theorem drive_data_scl (v : Bit) : (drive .data v s).scl = s.scl := rfl
@[simp] theorem drive_data_sda (v : Bit) : (drive .data v s).sda = v := rfl
@[simp] theorem drive_data_ack (v : Bit) : (drive .data v s).ack = s.ack := rfl
@[simp] theorem drive_data_ackFresh (v : Bit) : (drive .data v s).ackFresh = s.ackFresh := rfl
@[simp] theorem drive_data_time (v : Bit) : (drive .data v s).time = s.time := rfl
@[simp] theorem drive_data_trace (v : Bit) : (drive .data v s).trace = s.trace ++ [.drive .data v s.time] := rfl
@[simp] theorem drive_data_fault (v : Bit) : (drive .data v s).fault = s.fault := rfl
@[simp] theorem drive_data_program (v : Bit) : (drive .data v s).program = s.program := rfl
@[simp] theorem drive_data_pc (v : Bit) : (drive .data v s).pc = s.pc := rfl
@[simp] theorem drive_data_resp (v : Bit) : (drive .data v s).resp = s.resp := rfl

@[simp] theorem sample_params : (sample s).params = s.params := rfl
@[simp] theorem sample_scl : (sample s).scl = s.scl := rfl
@[simp] theorem sample_sda : (sample s).sda = s.sda := rfl
@[simp] theorem sample_ack : (sample s).ack = s.ack := rfl
@[simp] theorem sample_ackFresh : (sample s).ackFresh = s.ackFresh := rfl
@[simp] theorem sample_time : (sample s).time = s.time := rfl
@[simp] theorem sample_trace : (sample s).trace = s.trace ++ [.sample (answer s) s.time] := rfl
@[simp] theorem sample_fault : (sample s).fault = s.fault := rfl
@[simp] theorem sample_program : (sample s).program = s.program := rfl
@[simp] theorem sample_pc : (sample s).pc = s.pc := rfl
@[simp] theorem sample_resp : (sample s).resp = s.resp := rfl

@[simp] theorem wait_params (n : Nat) : (wait n s).params = s.params := rfl
@[simp] theorem wait_scl (n : Nat) : (wait n s).scl = s.scl := rfl
@[simp] theorem wait_sda (n : Nat) : (wait n s).sda = s.sda := rfl
@[simp] theorem wait_ack (n : Nat) : (wait n s).ack = s.ack := rfl
@[simp] theorem wait_ackFresh (n : Nat) : (wait n s).ackFresh = s.ackFresh := rfl
@[simp] theorem wait_time (n : Nat) : (wait n s).time = s.time + n := rfl
@[simp] theorem wait_trace (n : Nat) : (wait n s).trace = s.trace ++ [.wait n s.time] := rfl
@[simp] theorem wait_fault (n : Nat) : (wait n s).fault = s.fault := rfl
@[simp] theorem wait_program (n : Nat) : (wait n s).program = s.program := rfl
@[simp] theorem wait_pc (n : Nat) : (wait n s).pc = s.pc := rfl
@[simp] theorem wait_resp (n : Nat) : (wait n s).resp = s.resp := rfl

@[simp] theorem setAck_params (b : Bit) : (setAck b s).params = s.params := rfl
@[simp] theorem setAck_scl (b : Bit) : (setAck b s).scl = s.scl := rfl
@[simp] theorem setAck_sda (b : Bit) : (setAck b s).sda = s.sda := rfl
@[simp] theorem setAck_ack (b : Bit) : (setAck b s).ack = some (ackOf b) := rfl
@[simp] theorem setAck_ackFresh (b : Bit) : (setAck b s).ackFresh = true := rfl
@[simp] theorem setAck_time (b : Bit) : (setAck b s).time = s.time := rfl
@[simp] theorem setAck_trace (b : Bit) : (setAck b s).trace = s.trace := rfl
@[simp] theorem setAck_fault (b : Bit) : (setAck b s).fault = s.fault := rfl
@[simp] theorem setAck_program (b : Bit) : (setAck b s).program = s.program := rfl
@[simp] theorem setAck_pc (b : Bit) : (setAck b s).pc = s.pc := rfl
@[simp] theorem setAck_resp (b : Bit) : (setAck b s).resp = s.resp := rfl

@[simp] theorem expireAck_params : (expireAck s).params = s.params := rfl
@[simp] theorem expireAck_scl : (expireAck s).scl = s.scl := rfl
@[simp] theorem expireAck_sda : (expireAck s).sda = s.sda := rfl
@[simp] theorem expireAck_ack : (expireAck s).ack = s.ack := rfl
@[simp] theorem expireAck_ackFresh : (expireAck s).ackFresh = false := rfl
@[simp] theorem expireAck_time : (expireAck s).time = s.time := rfl
@[simp] theorem expireAck_trace : (expireAck s).trace = s.trace := rfl
@[simp] theorem expireAck_fault : (expireAck s).fault = s.fault := rfl
@[simp] theorem expireAck_program : (expireAck s).program = s.program := rfl
@[simp] theorem expireAck_pc : (expireAck s).pc = s.pc := rfl
@[simp] theorem expireAck_resp : (expireAck s).resp = s.resp := rfl

@[simp] theorem respond_params (r : Response) : (respond r s).params = s.params := rfl
@[simp] theorem respond_scl (r : Response) : (respond r s).scl = s.scl := rfl
@[simp] theorem respond_sda (r : Response) : (respond r s).sda = s.sda := rfl
@[simp] theorem respond_ack (r : Response) : (respond r s).ack = s.ack := rfl
@[simp] theorem respond_ackFresh (r : Response) : (respond r s).ackFresh = s.ackFresh := rfl
@[simp] theorem respond_time (r : Response) : (respond r s).time = s.time := rfl
@[simp] theorem respond_trace (r : Response) : (respond r s).trace = s.trace := rfl
@[simp] theorem respond_fault (r : Response) : (respond r s).fault = s.fault := rfl
@[simp] theorem respond_program (r : Response) : (respond r s).program = s.program := rfl
@[simp] theorem respond_pc (r : Response) : (respond r s).pc = s.pc + 1 := rfl
@[simp] theorem respond_resp (r : Response) : (respond r s).resp = s.resp ++ [r] := rfl

@[simp] theorem raise_params (c : FaultCode) (w : Word32) : (raise c w s).params = s.params := rfl
@[simp] theorem raise_scl (c : FaultCode) (w : Word32) : (raise c w s).scl = s.scl := rfl
@[simp] theorem raise_sda (c : FaultCode) (w : Word32) : (raise c w s).sda = s.sda := rfl
@[simp] theorem raise_ack (c : FaultCode) (w : Word32) : (raise c w s).ack = s.ack := rfl
@[simp] theorem raise_ackFresh (c : FaultCode) (w : Word32) : (raise c w s).ackFresh = s.ackFresh := rfl
@[simp] theorem raise_time (c : FaultCode) (w : Word32) : (raise c w s).time = s.time := rfl
@[simp] theorem raise_trace (c : FaultCode) (w : Word32) : (raise c w s).trace = s.trace := rfl
@[simp] theorem raise_fault (c : FaultCode) (w : Word32) : (raise c w s).fault = some ⟨c, w⟩ := rfl
@[simp] theorem raise_program (c : FaultCode) (w : Word32) : (raise c w s).program = s.program := rfl
@[simp] theorem raise_pc (c : FaultCode) (w : Word32) : (raise c w s).pc = s.pc := rfl
@[simp] theorem raise_resp (c : FaultCode) (w : Word32) : (raise c w s).resp = s.resp := rfl

@[simp] theorem half_eq_wait : half s = wait s.params.halfUs s := rfl
@[simp] theorem settle_eq_wait : settle s = wait (settleUs s.params) s := rfl

end Sys2Proof.Machine
end

