-- ==== Sys2Proof/Laws/Waveform.lean ====
section
/-! SUPPORT. Performing a waveform, and the one lemma of each command's sequence: it performs the waveform the
rule gives, its samples being the oracle's answers. -/

namespace Sys2Proof.Machine

/-- The level a waveform last drives on a line; `l` where it drives none. -/
def lastAct (line : Line) (l : Bit) : List Act → Bit
  | [] => l
  | .drive line' v :: rest => lastAct line (if line' = line then v else l) rest
  | .sample _ :: rest => lastAct line l rest

/-- The state after a waveform has been performed, each act followed by a half period. -/
def perform (acts : List Act) (s : State) : State :=
  { s with
    scl := lastAct .clock s.scl acts
    sda := lastAct .data s.sda acts
    time := s.time + acts.length * s.params.halfUs
    trace := s.trace ++ pacedFrom s acts }

section
variable (s : State) (acts : List Act)
@[simp] theorem perform_params : (perform acts s).params = s.params := rfl
@[simp] theorem perform_scl : (perform acts s).scl = lastAct .clock s.scl acts := rfl
@[simp] theorem perform_sda : (perform acts s).sda = lastAct .data s.sda acts := rfl
@[simp] theorem perform_ack : (perform acts s).ack = s.ack := rfl
@[simp] theorem perform_ackFresh : (perform acts s).ackFresh = s.ackFresh := rfl
@[simp] theorem perform_time : (perform acts s).time = s.time + acts.length * s.params.halfUs := rfl
@[simp] theorem perform_trace : (perform acts s).trace = s.trace ++ pacedFrom s acts := rfl
@[simp] theorem perform_fault : (perform acts s).fault = s.fault := rfl
@[simp] theorem perform_program : (perform acts s).program = s.program := rfl
@[simp] theorem perform_pc : (perform acts s).pc = s.pc := rfl
@[simp] theorem perform_resp : (perform acts s).resp = s.resp := rfl
end

theorem lastAct_append (line : Line) (l : Bit) (a b : List Act) :
    lastAct line l (a ++ b) = lastAct line (lastAct line l a) b := by
  induction a generalizing l with
  | nil => rfl
  | cons x xs ih => cases x <;> exact ih _

theorem paced_append (h t : Nat) (a b : List Act) :
    paced h t (a ++ b) = paced h t a ++ paced h (t + a.length * h) b := by
  induction a generalizing t with
  | nil => simp [paced]
  | cons x xs ih =>
    have e : t + h + xs.length * h = t + (x :: xs).length * h := by
      rw [List.length_cons, Nat.succ_mul]; omega
    rw [List.cons_append, paced, ih, e]; rfl

theorem pacedFrom_append (s : State) (a b : List Act) :
    pacedFrom s (a ++ b) = pacedFrom s a ++ pacedFrom (perform a s) b :=
  paced_append _ _ _ _

theorem perform_perform (a b : List Act) (s : State) : perform b (perform a s) = perform (a ++ b) s := by
  have e : s.time + a.length * s.params.halfUs + b.length * s.params.halfUs =
      s.time + (a ++ b).length * s.params.halfUs := by
    rw [List.length_append, Nat.add_mul]; omega
  simp only [perform, lastAct_append, pacedFrom_append, List.append_assoc, e]

/-- The answer to a sample taken after a waveform. -/
theorem answer_perform (acts : List Act) (s : State) : answer (perform acts s) = answerAfter s acts := rfl

theorem answerAfter_perform (a b : List Act) (s : State) :
    answerAfter (perform a s) b = answerAfter s (a ++ b) := by
  rw [← answer_perform, perform_perform, answer_perform]

/-- A drive under the delay discipline performs one act. -/
theorem driveHalf_eq (line : Line) (v : Bit) (s : State) : driveHalf line v s = perform [.drive line v] s := by
  cases line <;> simp [driveHalf, drive, wait, perform, lastAct, pacedFrom, paced, eventAt]

/-- A sample under the delay discipline performs one act, its bit being the oracle's answer. -/
theorem sampleHalf_eq (s : State) : sampleHalf s = perform [.sample (answer s)] s := by
  simp [sampleHalf, sample, wait, perform, lastAct, pacedFrom, paced, eventAt]

theorem startSeq_eq (s : State) : startSeq s = expireAck (perform startActs s) := by
  simp only [startSeq, driveHalf_eq, perform_perform, startActs, List.cons_append, List.nil_append]

theorem stopSeq_eq (s : State) : stopSeq s = expireAck (perform stopActs s) := by
  simp only [stopSeq, driveHalf_eq, perform_perform, stopActs, List.cons_append, List.nil_append]

theorem sendackSeq_eq (a : Byte) (s : State) : sendackSeq a s = expireAck (perform (sendackActs a) s) := by
  simp only [sendackSeq, driveHalf_eq, perform_perform, sendackActs, txBitActs, List.cons_append, List.nil_append]

theorem txBit_eq (s : State) (b : Bit) : txBit s b = perform (txBitActs b) s := by
  simp only [txBit, driveHalf_eq, perform_perform, txBitActs, List.cons_append, List.nil_append]

theorem foldl_txBit (bs : List Bit) (s : State) : bs.foldl txBit s = perform (bs.flatMap txBitActs) s := by
  induction bs generalizing s with
  | nil => simp [perform, lastAct, pacedFrom, paced]
  | cons b bs ih => rw [List.foldl_cons, ih, txBit_eq, perform_perform, List.flatMap_cons]

theorem txLead_eq (v : Byte) (s : State) : txLead v s = perform (txLeadActs v) s := by
  simp only [txLead, driveHalf_eq, foldl_txBit, perform_perform, txLeadActs, List.append_assoc,
    List.cons_append, List.nil_append]

/-- TX performs its waveform; the flag takes the acknowledge sample's result. -/
theorem txSeq_eq (v : Byte) (s : State) :
    txSeq v s = setAck (answerAfter s (txLeadActs v)) (perform (txActs v (answerAfter s (txLeadActs v))) s) := by
  simp only [txSeq, txLead_eq, sampleHalf_eq, answer_perform, driveHalf_eq, perform_perform, txActs,
    List.append_assoc, List.cons_append, List.nil_append]

/-- The bits `k` further samples of an RX read after the bits `bs`. -/
def rxAnswers (s : State) : Nat → List Bit → List Bit
  | 0, bs => bs
  | k + 1, bs => rxAnswers s k (bs ++ [answerAfter s (rxLeadActs bs)])

theorem rxBit_eq (s : State) (bs : List Bit) :
    rxBit (byteOfBits bs, perform (bs.flatMap rxBitActs) s) =
      (byteOfBits (bs ++ [answerAfter s (rxLeadActs bs)]),
        perform ((bs ++ [answerAfter s (rxLeadActs bs)]).flatMap rxBitActs) s) := by
  simp only [rxBit, rxEdge, driveHalf_eq, sampleHalf_eq, perform_perform, answer_perform, rxLeadActs, rxBitActs,
    byteOfBits, List.foldl_append, List.foldl_cons, List.foldl_nil, List.flatMap_append, List.flatMap_cons,
    List.flatMap_nil, List.append_assoc, List.cons_append, List.nil_append]

theorem rxBits_eq (s : State) (k : Nat) (bs : List Bit) :
    rxBits k (byteOfBits bs, perform (bs.flatMap rxBitActs) s) =
      (byteOfBits (rxAnswers s k bs), perform ((rxAnswers s k bs).flatMap rxBitActs) s) := by
  induction k generalizing bs with
  | zero => rfl
  | succ k ih => rw [rxBits, rxBit_eq, ih, rxAnswers]

/-- RX performs its waveform and gives the byte its eight samples spell. -/
theorem rxSeq_eq (s : State) :
    rxSeq s = (byteOfBits (rxAnswers s 8 []), expireAck (perform (rxActs (rxAnswers s 8 [])) s)) := by
  have h := rxBits_eq s 8 []
  have e : perform (([] : List Bit).flatMap rxBitActs) s = s := by simp [perform, lastAct, pacedFrom, paced]
  rw [e] at h
  simp only [rxSeq, h, show (0 : Byte) = byteOfBits [] from rfl, driveHalf_eq, perform_perform, rxActs]

theorem rxAnswers_length (s : State) (k : Nat) (bs : List Bit) :
    (rxAnswers s k bs).length = bs.length + k := by
  induction k generalizing bs with
  | zero => rfl
  | succ k ih => rw [rxAnswers, ih]; simp; omega

/-- Each bit RX reads is the oracle's answer after the bits before it. -/
theorem rxAnswers_getElem (s : State) (k : Nat) (bs : List Bit) (j : Nat) (hj : bs.length ≤ j)
    (hk : j < bs.length + k) :
    (rxAnswers s k bs)[j]? = some (answerAfter s (rxLeadActs ((rxAnswers s k bs).take j))) := by
  induction k generalizing bs with
  | zero => omega
  | succ k ih =>
    have pre : ∀ (k : Nat) (bs : List Bit), (rxAnswers s k bs).take bs.length = bs := by
      intro k
      induction k with
      | zero => intro bs; simp [rxAnswers]
      | succ k ih =>
        intro bs
        have h := congrArg (List.take bs.length) (ih (bs ++ [answerAfter s (rxLeadActs bs)]))
        simpa [rxAnswers, List.take_take] using h
    rcases Nat.lt_or_ge bs.length j with h | h
    · rw [rxAnswers]
      exact ih _ (by simp; omega) (by simp; omega)
    · obtain rfl : j = bs.length := by omega
      rw [pre (k + 1) bs, rxAnswers]
      have h := congrArg (fun l => l[bs.length]?) (pre k (bs ++ [answerAfter s (rxLeadActs bs)]))
      simpa [List.getElem?_take] using h

end Sys2Proof.Machine
end

