-- ==== Sys2Proof/Laws/Ops.lean ====
section
/-! SUPPORT. One lemma for each shared operation that says everything it can do, and the small facts about
fetching a command. -/

namespace Sys2Proof.Machine

/-- `whenLive` answers a next state only in an engine that is not faulted, and then the one it was given. -/
theorem whenLive_next {t s u : State} (h : whenLive t s = .next u) : s.fault = none ∧ u = t := by
  unfold whenLive at h
  split at h
  · exact ⟨‹_›, by cases h; rfl⟩
  · cases h

theorem whenLive_live {s : State} (t : State) (h : s.fault = none) : whenLive t s = .next t := by
  simp [whenLive, h]

theorem whenLive_stuck {s : State} (t : State) {r : FaultRecord} (h : s.fault = some r) :
    whenLive t s = .fault (.stuck r) := by
  simp [whenLive, h]

/-- A command runs its body and hands over its response, in an engine that is not faulted. -/
theorem runCommand_live {s : State} (body : State → State × Response) (h : s.fault = none) :
    runCommand body s = .next (respond (body s).2 (body s).1) :=
  whenLive_live _ h

theorem runCommand_next {body : State → State × Response} {s u : State} (h : runCommand body s = .next u) :
    s.fault = none ∧ u = respond (body s).2 (body s).1 :=
  whenLive_next h

/-- The flag reads as written while it is fresh (R74). -/
theorem readFlag_ok {s : State} {b : Bool} : readFlag s = .ok b ↔ s.ack = some b ∧ s.ackFresh = true := by
  unfold readFlag
  split <;> cases hf : s.ackFresh <;> simp_all

theorem readFlag_unwritten {s : State} : readFlag s = .error .ackUnwritten ↔ s.ack = none := by
  unfold readFlag
  split <;> cases hf : s.ackFresh <;> simp_all

theorem readFlag_stale {s : State} :
    readFlag s = .error .ackStale ↔ s.ack ≠ none ∧ s.ackFresh = false := by
  unfold readFlag
  split <;> cases hf : s.ackFresh <;> simp_all

/-- The placed command is the one the host issues next. -/
theorem getElem?_placeCommand (w : Word32) (k : Nat) (p : List Word32) : (placeCommand w k p)[k]? = some w := by
  induction k generalizing p with
  | zero => cases p <;> rfl
  | succ k ih => cases p <;> simpa [placeCommand] using ih _

/-- Every step of a live engine holds the state (the program has ended) or issues the next word. -/
theorem step_live {s : State} (h : s.fault = none) :
    step s = (match s.program[s.pc]? with | none => .next s | some w => issue w s) := by
  simp only [step, hostStep, h, nextCommand] <;> rfl

theorem step_stuck {s : State} {r : FaultRecord} (h : s.fault = some r) : step s = .fault (.stuck r) := by
  simp [step, hostStep, h]

/-- A placed command that decodes to `i` is what the next step executes. -/
theorem step_withFetchWord {s : State} {nbits w : Nat} {i : Instr} (h : s.fault = none)
    (hd : decode (tableWord nbits w) = .command i) :
    step (s.withFetchWord nbits w) = exec i (s.withFetchWord nbits w) := by
  have hf : (s.withFetchWord nbits w).fault = none := h
  rw [step_live hf]
  simp only [State.withFetchWord, getElem?_placeCommand, issue, hd]

end Sys2Proof.Machine
end

