-- ==== Sys2Proof/Laws/Transaction.lean ====
section
/-! SUPPORT. WRITE: the flag steps pass through a waveform, and WRITE's sequence on each of its paths. -/

namespace Sys2Proof.Machine

theorem perform_setAck (acts : List Act) (b : Bit) (s : State) :
    perform acts (setAck b s) = setAck b (perform acts s) := rfl

theorem perform_expireAck (acts : List Act) (s : State) :
    perform acts (expireAck s) = expireAck (perform acts s) := rfl

theorem answerAfter_setAck (acts : List Act) (b : Bit) (s : State) :
    answerAfter (setAck b s) acts = answerAfter s acts := rfl

theorem answerAfter_expireAck (acts : List Act) (s : State) :
    answerAfter (expireAck s) acts = answerAfter s acts := rfl

theorem setAck_setAck (b c : Bit) (s : State) : setAck b (setAck c s) = setAck b s := rfl

theorem setAck_expireAck (b : Bit) (s : State) : setAck b (expireAck s) = setAck b s := rfl

theorem nacked_setAck (b : Bit) (s : State) : nacked (setAck b s) = b := by cases b <;> rfl

/-- A byte sent after a waveform that left the flag at anything. -/
theorem txSeq_after (v : Byte) (acts : List Act) (s : State) :
    txSeq v (perform acts s) =
      setAck (answerAfter s (acts ++ txLeadActs v))
        (perform (acts ++ txActs v (answerAfter s (acts ++ txLeadActs v))) s) := by
  rw [txSeq_eq, answerAfter_perform, perform_perform]

theorem txSeq_setAck (v : Byte) (b : Bit) (s : State) : txSeq v (setAck b s) = txSeq v s := by
  simp only [txSeq_eq, answerAfter_setAck, perform_setAck, setAck_setAck]

theorem txSeq_expireAck (v : Byte) (s : State) : txSeq v (expireAck s) = txSeq v s := by
  simp only [txSeq_eq, answerAfter_expireAck, perform_expireAck, setAck_expireAck]

theorem stopSeq_setAck (b : Bit) (s : State) :
    stopSeq (setAck b s) = expireAck (setAck b (perform stopActs s)) := by
  rw [stopSeq_eq, perform_setAck]

theorem ackedActs_append (bytes : List Byte) (v : Byte) :
    ackedActs (bytes ++ [v]) = ackedActs bytes ++ txActs v false := by
  simp [ackedActs]

variable (i v : Byte) (s : State)

/-- WRITE after its first byte. -/
theorem writeAddr_eq :
    writeAddr s = setAck (writeAckBit s i v 1)
      (perform (ackedActs [] ++ txActs s.params.devAddr (writeAckBit s i v 1)) s) := by
  simp only [writeAddr, startSeq_eq, txSeq_expireAck, txSeq_after]
  rfl

/-- WRITE after its second byte, the first acknowledged. -/
theorem writeIndex_eq (h1 : writeAckBit s i v 1 = false) :
    writeIndex i s = setAck (writeAckBit s i v 2)
      (perform (ackedActs [s.params.devAddr] ++ txActs i (writeAckBit s i v 2)) s) := by
  rw [writeIndex, writeAddr_eq i v, h1, txSeq_setAck, ← ackedActs_append, txSeq_after]
  rfl

/-- WRITE after its third byte, the first two acknowledged. -/
theorem writeValue_eq (h1 : writeAckBit s i v 1 = false) (h2 : writeAckBit s i v 2 = false) :
    writeValue i v s = setAck (writeAckBit s i v 3)
      (perform (ackedActs [s.params.devAddr, i] ++ txActs v (writeAckBit s i v 3)) s) := by
  rw [writeValue, writeIndex_eq i v s h1, h2, txSeq_setAck, ← ackedActs_append, txSeq_after]
  rfl

/-- WRITE's success path (R76). -/
theorem writeSeq_acked (h : DeviceAcks s i v) :
    writeSeq i v s =
      (settle (expireAck (setAck false (perform (writeDoneActs s.params i v) s))), .flag true) := by
  obtain ⟨h1, h2, h3⟩ := h
  have e1 : nacked (writeAddr s) = false := by rw [writeAddr_eq i v, nacked_setAck, h1]
  have e2 : nacked (writeIndex i s) = false := by rw [writeIndex_eq i v s h1, nacked_setAck, h2]
  have e3 : nacked (writeValue i v s) = false := by rw [writeValue_eq i v s h1 h2, nacked_setAck, h3]
  simp only [writeSeq, e1, e2, e3, Bool.false_eq_true, if_false]
  rw [writeValue_eq i v s h1 h2, h3, stopSeq_setAck, ← ackedActs_append, perform_perform]
  rfl

/-- WRITE's abort at byte `k` (R77). -/
theorem writeSeq_nacked (k : Nat) (h : DeviceNacksAt s i v k) :
    writeSeq i v s = (setAck true (perform (writeAbortActs s.params i v k) s), .flag false) := by
  obtain ⟨hk1, hk3, hlo, hk⟩ := h
  have hc : k = 1 ∨ k = 2 ∨ k = 3 := by omega
  rcases hc with rfl | rfl | rfl
  · have e1 : nacked (writeAddr s) = true := by rw [writeAddr_eq i v, nacked_setAck, hk]
    simp only [writeSeq, e1, if_true]
    rw [writeAddr_eq i v, hk]; rfl
  · have h1 := hlo 1 (by omega) (by omega)
    have e1 : nacked (writeAddr s) = false := by rw [writeAddr_eq i v, nacked_setAck, h1]
    have e2 : nacked (writeIndex i s) = true := by rw [writeIndex_eq i v s h1, nacked_setAck, hk]
    simp only [writeSeq, e1, e2, Bool.false_eq_true, if_false, if_true]
    rw [writeIndex_eq i v s h1, hk]; rfl
  · have h1 := hlo 1 (by omega) (by omega)
    have h2 := hlo 2 (by omega) (by omega)
    have e1 : nacked (writeAddr s) = false := by rw [writeAddr_eq i v, nacked_setAck, h1]
    have e2 : nacked (writeIndex i s) = false := by rw [writeIndex_eq i v s h1, nacked_setAck, h2]
    have e3 : nacked (writeValue i v s) = true := by rw [writeValue_eq i v s h1 h2, nacked_setAck, hk]
    simp only [writeSeq, e1, e2, e3, Bool.false_eq_true, if_false, if_true]
    rw [writeValue_eq i v s h1 h2, hk]; rfl

/-- A WRITE is acknowledged throughout, or meets its first missing acknowledge at one of its three bytes. -/
theorem acks_or_nacks : DeviceAcks s i v ∨ ∃ k, DeviceNacksAt s i v k := by
  rcases e1 : writeAckBit s i v 1 with _ | _
  · rcases e2 : writeAckBit s i v 2 with _ | _
    · rcases e3 : writeAckBit s i v 3 with _ | _
      · exact .inl ⟨e1, e2, e3⟩
      · refine .inr ⟨3, by omega, by omega, fun j hj h1 => ?_, e3⟩
        have hc : j = 1 ∨ j = 2 := by omega
        rcases hc with rfl | rfl <;> assumption
    · refine .inr ⟨2, by omega, by omega, fun j hj h1 => ?_, e2⟩
      obtain rfl : j = 1 := by omega
      exact e1
  · exact .inr ⟨1, by omega, by omega, fun j hj h1 => absurd hj (by omega), e1⟩

end Sys2Proof.Machine
end

