-- ==== Sys2Proof/Laws/Exec.lean ====
section
/-! SUPPORT. The inversion lemma of `exec`: in a live engine each command has one next state, written with the
waveform it performs; in a faulted engine there is none. -/

namespace Sys2Proof.Machine

/-- The bits an RX issued in `s` reads. -/
abbrev rxRead (s : State) : List Bit := rxAnswers s 8 []

/-- The next state of a command in a live engine. -/
def execNext (i : Instr) (s : State) : State :=
  match i with
  | .delay => respond .nothing (wait s.params.halfUs s)
  | .start => respond .nothing (expireAck (perform startActs s))
  | .stop => respond .nothing (expireAck (perform stopActs s))
  | .tx v =>
    respond .nothing
      (setAck (answerAfter s (txLeadActs v)) (perform (txActs v (answerAfter s (txLeadActs v))) s))
  | .rx => respond (.byte (byteOfBits (rxRead s))) (expireAck (perform (rxActs (rxRead s)) s))
  | .sendack a => respond .nothing (expireAck (perform (sendackActs a) s))
  | .readack => readackNext s
  | .write i v => respond (writeSeq i v s).2 (writeSeq i v s).1

/-- Every command completes in a live engine. -/
theorem exec_live (i : Instr) {s : State} (h : s.fault = none) : exec i s = .next (execNext i s) := by
  cases i with
  | delay => simp only [exec, execDelay, runCommand_live _ h, half_eq_wait, execNext]
  | start => simp only [exec, execStart, runCommand_live _ h, startSeq_eq, execNext]
  | stop => simp only [exec, execStop, runCommand_live _ h, stopSeq_eq, execNext]
  | tx v => simp only [exec, execTx, runCommand_live _ h, txSeq_eq, execNext]
  | rx => simp only [exec, execRx, runCommand_live _ h, rxSeq_eq, execNext]
  | sendack a => simp only [exec, execSendack, runCommand_live _ h, sendackSeq_eq, execNext]
  | readack => exact whenLive_live _ h
  | write i v => simp only [exec, execWrite, runCommand_live _ h, execNext]

/-- A faulted engine executes nothing. -/
theorem exec_stuck (i : Instr) {s : State} {r : FaultRecord} (h : s.fault = some r) :
    exec i s = .fault (.stuck r) := by
  cases i <;> exact whenLive_stuck _ h

/-- What a command can do: run in a live engine, to its one next state. -/
theorem exec_next_iff {i : Instr} {s t : State} : exec i s = .next t ↔ s.fault = none ∧ t = execNext i s := by
  constructor
  · intro h
    cases hf : s.fault with
    | none =>
      rw [exec_live i hf] at h
      exact ⟨rfl, by cases h; rfl⟩
    | some r =>
      rw [exec_stuck i hf] at h
      cases h
  · rintro ⟨h, rfl⟩
    exact exec_live i h

section
variable (i v : Byte) (s : State)

/-- The next state of an acknowledged WRITE. -/
theorem execNext_write_acked (h : DeviceAcks s i v) :
    execNext (.write i v) s =
      respond (.flag true) (settle (expireAck (setAck false (perform (writeDoneActs s.params i v) s)))) := by
  simp only [execNext, writeSeq_acked i v s h]

/-- The next state of a WRITE refused at byte `k`. -/
theorem execNext_write_nacked {k : Nat} (h : DeviceNacksAt s i v k) :
    execNext (.write i v) s =
      respond (.flag false) (setAck true (perform (writeAbortActs s.params i v k) s)) := by
  simp only [execNext, writeSeq_nacked i v s k h]

end

/-- READACK hands over a fresh flag. -/
theorem readackNext_ok {s : State} {b : Bool} (ha : s.ack = some b) (hf : s.ackFresh = true) :
    readackNext s = respond (.flag b) s := by
  simp only [readackNext, readFlag_ok.2 ⟨ha, hf⟩, complete]

theorem readackNext_unwritten {s : State} (ha : s.ack = none) :
    readackNext s = raise .ackUnwritten (encode .readack) s := by
  simp only [readackNext, readFlag_unwritten.2 ha]

theorem readackNext_stale {s : State} (ha : s.ack ≠ none) (hf : s.ackFresh = false) :
    readackNext s = raise .ackStale (encode .readack) s := by
  simp only [readackNext, readFlag_stale.2 ⟨ha, hf⟩]

/-- READACK hands over a flag, or takes a fault the flag gives. -/
theorem readackNext_cases (s : State) :
    (∃ b, s.ack = some b ∧ s.ackFresh = true ∧ readackNext s = respond (.flag b) s) ∨
    (∃ c, readFlag s = .error c ∧ readackNext s = raise c (encode .readack) s) := by
  cases h : readFlag s with
  | ok b => exact .inl ⟨b, (readFlag_ok.1 h).1, (readFlag_ok.1 h).2, by simp only [readackNext, h, complete]⟩
  | error c => exact .inr ⟨c, rfl, by simp only [readackNext, h]⟩

/-- What a step can do: hold the state of a live engine whose program has ended, run the decoded command, or
record the fault of a rejected word. -/
theorem step_next_cases {s t : State} (h : step s = .next t) :
    s.fault = none ∧
      ((s.program[s.pc]? = none ∧ t = s) ∨
       (∃ w i, s.program[s.pc]? = some w ∧ decode w = .command i ∧ t = execNext i s) ∨
       (∃ w c, s.program[s.pc]? = some w ∧ decode w = .reject c ∧ t = raise c w s)) := by
  cases hf : s.fault with
  | some r =>
    rw [step_stuck hf] at h
    cases h
  | none =>
    rw [step_live hf] at h
    refine ⟨rfl, ?_⟩
    cases hp : s.program[s.pc]? with
    | none =>
      rw [hp] at h
      exact .inl ⟨rfl, by cases h; rfl⟩
    | some w =>
      rw [hp] at h
      simp only [issue] at h
      cases hd : decode w with
      | command i =>
        rw [hd] at h
        exact .inr (.inl ⟨w, i, rfl, hd, (exec_next_iff.1 h).2⟩)
      | reject c =>
        rw [hd] at h
        exact .inr (.inr ⟨w, c, rfl, hd, (whenLive_next h).2⟩)

end Sys2Proof.Machine
end

