-- ==== Sys2Proof/Laws/Trace.lean ====
section
/-! SUPPORT. How the readings of a trace (Safety) pass through an appended trace and a paced waveform. -/

namespace Sys2Proof.Machine

theorem lastLevel_append (line : Line) (l : Bit) (a b : List Event) :
    lastLevel line l (a ++ b) = lastLevel line (lastLevel line l a) b := by
  induction a generalizing l with
  | nil => rfl
  | cons x xs ih => cases x <;> exact ih _

theorem elapsed_append (a b : List Event) : elapsed (a ++ b) = elapsed a + elapsed b := by
  induction a with
  | nil => simp [elapsed]
  | cons x xs ih => cases x <;> simp [elapsed, ih]; omega

theorem timed_append (t : Nat) (a b : List Event) :
    timed t (a ++ b) = (timed t a && timed (t + elapsed a) b) := by
  induction a generalizing t with
  | nil => simp [timed, elapsed]
  | cons x xs ih => cases x <;> simp [timed, elapsed, ih, Nat.add_assoc, Bool.and_assoc]

theorem sampledHigh_append (c : Bit) (a b : List Event) :
    sampledHigh c (a ++ b) = (sampledHigh c a && sampledHigh (lastLevel .clock c a) b) := by
  induction a generalizing c with
  | nil => simp [sampledHigh, lastLevel]
  | cons x xs ih =>
    rcases x with ⟨_ | _, v, t⟩ | ⟨b, t⟩ | ⟨n, t⟩ <;> simp [sampledHigh, lastLevel, ih, Bool.and_assoc]

theorem lineTimes_append (a b : List Event) : lineTimes (a ++ b) = lineTimes a ++ lineTimes b := by
  induction a with
  | nil => rfl
  | cons x xs ih => cases x <;> simp [lineTimes, ih]

theorem disciplined_append (h : Nat) (a b : List Event) (ha : disciplined h a = true) :
    disciplined h (a ++ b) = disciplined h b := by
  induction a using disciplined.induct with
  | case1 => rfl
  | case2 n t rest ih => simpa [disciplined] using ih (by simpa [disciplined] using ha)
  | case3 l v t n t' rest ih =>
    simp only [disciplined, Bool.and_eq_true] at ha
    simp only [List.cons_append, disciplined, ha.1.1, ha.1.2, Bool.true_and]
    exact ih ha.2
  | case4 b t n t' rest ih =>
    simp only [disciplined, Bool.and_eq_true] at ha
    simp only [List.cons_append, disciplined, ha.1.1, ha.1.2, Bool.true_and]
    exact ih ha.2
  | case5 l v t rest hne =>
    rw [disciplined] at ha
    · cases ha
    · exact hne
  | case6 b t rest hne =>
    rw [disciplined] at ha
    · cases ha
    · exact hne

section
variable (h t : Nat) (acts : List Act)

theorem lastLevel_paced (line : Line) (l : Bit) : lastLevel line l (paced h t acts) = lastAct line l acts := by
  induction acts generalizing t l with
  | nil => rfl
  | cons a acts ih => cases a <;> exact ih _ _

theorem elapsed_paced : elapsed (paced h t acts) = acts.length * h := by
  induction acts generalizing t with
  | nil => simp [paced, elapsed]
  | cons a acts ih => cases a <;> simp [paced, eventAt, elapsed, ih, Nat.succ_mul, Nat.add_comm]

theorem timed_paced : timed t (paced h t acts) = true := by
  induction acts generalizing t with
  | nil => rfl
  | cons a acts ih => cases a <;> simp [paced, eventAt, timed, ih]

theorem disciplined_paced : disciplined h (paced h t acts) = true := by
  induction acts generalizing t with
  | nil => rfl
  | cons a acts ih => cases a <;> simp [paced, eventAt, disciplined, ih]

theorem length_paced : (paced h t acts).length = 2 * acts.length := by
  induction acts generalizing t with
  | nil => rfl
  | cons a acts ih => simp [paced, ih]; omega

/-- The line events of a paced waveform begin at `t` and lie one half period apart. -/
theorem lineTimes_paced : lineTimes (paced h t acts) = (List.range acts.length).map fun k => t + k * h := by
  induction acts generalizing t with
  | nil => rfl
  | cons a acts ih =>
    have e : lineTimes (paced h t (a :: acts)) = t :: lineTimes (paced h (t + h) acts) := by
      cases a <;> simp [paced, eventAt, lineTimes]
    rw [e, ih, List.length_cons, List.range_succ_eq_map, List.map_cons, List.map_map]
    simp only [Nat.zero_mul, Nat.add_zero, List.cons.injEq, true_and]
    refine List.map_congr_left fun k _ => ?_
    simp only [Function.comp, Nat.succ_mul]
    omega

end

/-- An oracle-answered trace stays so when one more event is recorded that is no sample, or a sample the
oracle answered. -/
theorem Answered.append {p : Params} {tr : List Event} (h : Answered p tr) (e : Event)
    (he : ∀ b t, e = .sample b t → b = oracle p tr) : Answered p (tr ++ [e]) := by
  intro k b t hk
  rcases Nat.lt_or_ge k tr.length with hl | hl
  · rw [List.getElem?_append_left hl] at hk
    rw [List.take_append_of_le_length (by omega)]
    exact h k b t hk
  · rw [List.getElem?_append_right hl] at hk
    have h0 : k - tr.length = 0 := by
      by_contra hne
      have : ([e] : List Event)[k - tr.length]? = none := by simp; omega
      rw [this] at hk
      cases hk
    rw [h0] at hk
    have hkl : k = tr.length := by omega
    simp only [List.getElem?_cons_zero, Option.some.injEq] at hk
    rw [hkl, List.take_left]
    exact he b t hk

/-- The trace invariant looks at the parameters, the latches, the time and the trace only. -/
theorem TraceInv.congr {s t : State} (h : TraceInv s) (hp : t.params = s.params) (hc : t.scl = s.scl)
    (hd : t.sda = s.sda) (ht : t.time = s.time) (htr : t.trace = s.trace) : TraceInv t := by
  obtain ⟨a, b, c, d, e, f, g⟩ := h
  exact ⟨by rw [hp, hc, htr, a], by rw [hp, hd, htr, b], by rw [ht, htr, c], by rw [htr, d],
    by rw [hp, htr, e], by rw [hp, htr, f], by rw [hp, htr]; exact g⟩

/-- A wait keeps the trace invariant. -/
theorem traceInv_wait {s : State} (h : TraceInv s) (n : Nat) : TraceInv (wait n s) where
  clockLatch := by simp [lastLevel_append, lastLevel, h.clockLatch]
  dataLatch := by simp [lastLevel_append, lastLevel, h.dataLatch]
  clockTime := by simp [elapsed_append, elapsed, h.clockTime]
  stamps := by have e := h.clockTime; simp [timed_append, timed, h.stamps, e]
  delays := by simp [disciplined_append _ _ _ h.delays, disciplined]
  samples := by simp [sampledHigh_append, sampledHigh, h.samples]
  answers := Answered.append h.answers _ fun b t he => by cases he

/-- A drive under the delay discipline keeps the trace invariant. -/
theorem traceInv_driveHalf {s : State} (h : TraceInv s) (line : Line) (v : Bit) :
    TraceInv (driveHalf line v s) := by
  have hd : Answered (drive line v s).params (drive line v s).trace := by
    cases line <;> exact Answered.append h.answers _ fun b t he => by cases he
  rw [driveHalf_eq]
  exact {
    clockLatch := by
      cases line <;> simp [lastLevel_append, lastLevel, lastAct, pacedFrom, paced, eventAt, h.clockLatch]
    dataLatch := by
      cases line <;> simp [lastLevel_append, lastLevel, lastAct, pacedFrom, paced, eventAt, h.dataLatch]
    clockTime := by simp [elapsed_append, pacedFrom, elapsed_paced, h.clockTime]
    stamps := by
      have e := h.clockTime
      simp [timed_append, pacedFrom, h.stamps, ← e, timed_paced]
    delays := by simp [disciplined_append _ _ _ h.delays, pacedFrom, disciplined_paced]
    samples := by
      cases line <;> simp [sampledHigh_append, sampledHigh, pacedFrom, paced, eventAt, h.samples]
    answers := by
      have e : (perform [.drive line v] s).trace =
          (drive line v s).trace ++ [.wait s.params.halfUs s.time] := by
        cases line <;> simp [pacedFrom, paced, eventAt]
      rw [e]
      cases line <;> exact Answered.append hd _ fun b t he => by cases he }

/-- A sample under the delay discipline keeps the trace invariant, while CLOCK is high. -/
theorem traceInv_sampleHalf {s : State} (h : TraceInv s) (hc : s.scl = true) : TraceInv (sampleHalf s) := by
  have hs : Answered s.params (sample s).trace :=
    Answered.append h.answers _ fun b t he => by cases he; rfl
  rw [sampleHalf_eq]
  exact {
    clockLatch := by simp [lastLevel_append, lastLevel, lastAct, pacedFrom, paced, eventAt, h.clockLatch]
    dataLatch := by simp [lastLevel_append, lastLevel, lastAct, pacedFrom, paced, eventAt, h.dataLatch]
    clockTime := by simp [elapsed_append, pacedFrom, elapsed_paced, h.clockTime]
    stamps := by
      have e := h.clockTime
      simp [timed_append, pacedFrom, h.stamps, ← e, timed_paced]
    delays := by simp [disciplined_append _ _ _ h.delays, pacedFrom, disciplined_paced]
    samples := by
      have e := h.clockLatch
      simp [sampledHigh_append, sampledHigh, pacedFrom, paced, eventAt, h.samples, ← e, hc]
    answers := by
      have e : (perform [.sample (answer s)] s).trace =
          (sample s).trace ++ [.wait s.params.halfUs s.time] := by
        simp [pacedFrom, paced, eventAt]
      rw [e]
      exact Answered.append hs _ fun b t he => by cases he }

end Sys2Proof.Machine
end

