-- ==== Sys2Proof/Laws/Acts.lean ====
section
/-! SUPPORT. The length of each waveform and the levels it leaves on the lines. -/

namespace Sys2Proof.Machine

@[simp] theorem length_startActs : startActs.length = 2 := rfl
@[simp] theorem length_stopActs : stopActs.length = 3 := rfl
@[simp] theorem length_txLeadActs (v : Byte) : (txLeadActs v).length = 26 := rfl
@[simp] theorem length_txActs (v : Byte) (b : Bit) : (txActs v b).length = 28 := rfl
@[simp] theorem length_sendackActs (a : Byte) : (sendackActs a).length = 3 := rfl

section
variable (l : Bit)
@[simp] theorem clock_startActs : lastAct .clock l startActs = false := rfl
@[simp] theorem data_startActs : lastAct .data l startActs = false := rfl
@[simp] theorem clock_stopActs : lastAct .clock l stopActs = true := rfl
@[simp] theorem data_stopActs : lastAct .data l stopActs = true := rfl
@[simp] theorem clock_txActs (v : Byte) (b : Bit) : lastAct .clock l (txActs v b) = false := rfl
@[simp] theorem data_txActs (v : Byte) (b : Bit) : lastAct .data l (txActs v b) = true := rfl
@[simp] theorem clock_sendackActs (a : Byte) : lastAct .clock l (sendackActs a) = false := rfl
@[simp] theorem data_sendackActs (a : Byte) : lastAct .data l (sendackActs a) = ackLevel a := rfl
end

theorem length_flatMap_rxBitActs (bs : List Bit) : (bs.flatMap rxBitActs).length = 3 * bs.length := by
  induction bs with
  | nil => rfl
  | cons b bs ih => rw [List.flatMap_cons, List.length_append, ih]; simp [rxBitActs]; omega

@[simp] theorem length_rxActs (bs : List Bit) : (rxActs bs).length = 3 * bs.length + 1 := by
  rw [rxActs, List.length_append, length_flatMap_rxBitActs]; rfl

@[simp] theorem clock_rxActs (l : Bit) (bs : List Bit) : lastAct .clock l (rxActs bs) = false := by
  rw [rxActs, lastAct_append]; rfl

@[simp] theorem data_rxActs (l : Bit) (bs : List Bit) : lastAct .data l (rxActs bs) = l := by
  have h : lastAct .data l (bs.flatMap rxBitActs) = l := by
    induction bs with
    | nil => rfl
    | cons b bs ih => rw [List.flatMap_cons, lastAct_append]; exact ih
  rw [rxActs, lastAct_append, h]; rfl

/-- An RX reads eight bits. -/
@[simp] theorem length_rxRead (s : State) : (rxRead s).length = 8 := rxAnswers_length s 8 []

@[simp] theorem length_ackedActs (bytes : List Byte) : (ackedActs bytes).length = 2 + 28 * bytes.length := by
  induction bytes with
  | nil => rfl
  | cons v bytes ih =>
    simp only [ackedActs, List.flatMap_cons, List.length_append, length_startActs, length_txActs,
      List.length_cons] at ih ⊢
    omega

@[simp] theorem length_writeDoneActs (p : Params) (i v : Byte) : (writeDoneActs p i v).length = 89 := rfl

@[simp] theorem clock_writeDoneActs (l : Bit) (p : Params) (i v : Byte) :
    lastAct .clock l (writeDoneActs p i v) = true := by
  rw [writeDoneActs, lastAct_append, clock_stopActs]

@[simp] theorem data_writeDoneActs (l : Bit) (p : Params) (i v : Byte) :
    lastAct .data l (writeDoneActs p i v) = true := by
  rw [writeDoneActs, lastAct_append, data_stopActs]

@[simp] theorem clock_writeAbortActs (l : Bit) (p : Params) (i v : Byte) (k : Nat) :
    lastAct .clock l (writeAbortActs p i v k) = false := by
  rw [writeAbortActs, lastAct_append, clock_txActs]

@[simp] theorem data_writeAbortActs (l : Bit) (p : Params) (i v : Byte) (k : Nat) :
    lastAct .data l (writeAbortActs p i v k) = true := by
  rw [writeAbortActs, lastAct_append, data_txActs]

/-- A WRITE refused at byte `k` performs START and `k` bytes. -/
theorem length_writeAbortActs {p : Params} {i v : Byte} {k : Nat} (h1 : 1 ≤ k) (h3 : k ≤ 3) :
    (writeAbortActs p i v k).length = 2 + 28 * k := by
  have hb : (writeBytes p i v).length = 3 := rfl
  rw [writeAbortActs, List.length_append, length_ackedActs, length_txActs, List.length_take, hb]
  omega

@[simp] theorem length_pacedFrom (s : State) (acts : List Act) : (pacedFrom s acts).length = 2 * acts.length :=
  length_paced _ _ _

/-- The acknowledge answers of a WRITE decide one path. -/
theorem not_acks_and_nacks {s : State} {i v : Byte} {k : Nat} (ha : DeviceAcks s i v)
    (hn : DeviceNacksAt s i v k) : False := by
  obtain ⟨a1, a2, a3⟩ := ha
  obtain ⟨h1, h3, -, hk⟩ := hn
  have hc : k = 1 ∨ k = 2 ∨ k = 3 := by omega
  rcases hc with rfl | rfl | rfl
  · rw [a1] at hk; cases hk
  · rw [a2] at hk; cases hk
  · rw [a3] at hk; cases hk

end Sys2Proof.Machine
end

