-- ==== Sys2Proof/Laws/Assembler.lean ====
section
/-! SUPPORT. The assembler's text: a written number reads back, and a line is its mnemonic and its operands. -/

namespace Sys2Proof.Machine

/-- A character that is no blank and no separator. -/
def plain (c : Char) : Bool := !isBlank c && decide (c ≠ ',') && decide (c ≠ ';')

theorem plain_digitChar (d : Nat) : plain (digitChar d) = true := by
  rcases Nat.lt_or_ge d 16 with h | h
  · revert d
    decide
  · have e : digitChar d = '0' := by simp [digitChar, h]
    rw [e]
    decide

theorem digitValue_ten (d : Nat) (h : d < 10) : digitValue 10 (digitChar d) = some d := by
  revert d
  decide

theorem digitValue_sixteen (d : Nat) (h : d < 16) : digitValue 16 (digitChar d) = some d := by
  revert d
  decide

/-- Written digits read back, before whatever digits follow. -/
theorem digitsValue_digitsOf (base : Nat) (h2 : 2 ≤ base)
    (hd : ∀ d, d < base → digitValue base (digitChar d) = some d) (bound n : Nat) (ds : List Char) (h : n < bound) :
    digitsValue base 0 (digitsOf base bound n ds) = digitsValue base n ds := by
  induction bound generalizing n ds with
  | zero => omega
  | succ bound ih =>
    rw [digitsOf]
    split_ifs with hn
    · simp [digitsValue, hd n hn]
    · have hlt : n / base < n := Nat.div_lt_self (by omega) (by omega)
      rw [ih _ _ (by omega)]
      simp [digitsValue, hd _ (Nat.mod_lt n (by omega)), Nat.div_add_mod']

/-- Written digits are plain characters, and there is at least one. -/
theorem plain_digitsOf (base bound n : Nat) (acc : List Char) (h : acc.all plain = true) :
    (digitsOf base bound n acc).all plain = true := by
  induction bound generalizing n acc with
  | zero => exact h
  | succ bound ih =>
    rw [digitsOf]
    split_ifs
    · rw [List.all_cons, plain_digitChar, h]; rfl
    · exact ih _ _ (by rw [List.all_cons, plain_digitChar, h]; rfl)

theorem digitsOf_ne_nil (base bound n : Nat) (acc : List Char) (h : acc ≠ [] ∨ 0 < bound) :
    digitsOf base bound n acc ≠ [] := by
  induction bound generalizing n acc with
  | zero => simpa [digitsOf] using h
  | succ bound ih =>
    rw [digitsOf]
    split_ifs
    · simp
    · exact ih _ _ (.inl (by simp))

/-- A text that the assembler reads as the number `n`: plain characters, at least one. -/
structure Spells (cs : List Char) (n : Nat) : Prop where
  value : number cs = some n
  isPlain : cs.all plain = true
  nonempty : cs ≠ []

theorem spells_decimal (n : Nat) : Spells (decimal n) n where
  value := by
    have e : digitsValue 10 0 (decimal n) = some n :=
      digitsValue_digitsOf 10 (by omega) digitValue_ten (n + 1) n [] (by omega)
    unfold number
    split
    · rename_i c rest hc
      rw [hc] at e
      cases e
    · rename_i hc
      rwa [hc] at e
    · rename_i hc
      rw [hc] at e
      exact absurd hc (digitsOf_ne_nil _ _ _ _ (.inr (by omega)))
  isPlain := plain_digitsOf _ _ _ _ rfl
  nonempty := digitsOf_ne_nil _ _ _ _ (.inr (by omega))

theorem spells_hexadecimal (n : Nat) : Spells (hexadecimal n) n where
  value := by
    have e : digitsValue 16 0 (digitsOf 16 (n + 1) n []) = some n :=
      digitsValue_digitsOf 16 (by omega) digitValue_sixteen (n + 1) n [] (by omega)
    have hne : digitsOf 16 (n + 1) n [] ≠ [] := digitsOf_ne_nil _ _ _ _ (.inr (by omega))
    unfold hexadecimal
    cases hc : digitsOf 16 (n + 1) n [] with
    | nil => exact absurd hc hne
    | cons c rest =>
      rw [hc] at e
      exact e
  isPlain := by
    have e := plain_digitsOf 16 (n + 1) n [] rfl
    simp only [hexadecimal, List.all_cons, e]
    decide
  nonempty := by simp [hexadecimal]

theorem spells_of {num : Nat → List Char} (h : num = decimal ∨ num = hexadecimal) (n : Nat) : Spells (num n) n := by
  rcases h with rfl | rfl
  · exact spells_decimal n
  · exact spells_hexadecimal n

/-- A text with no blank at either end has nothing to trim. -/
theorem trimBlanks_eq {cs : List Char} (h1 : ∀ c, cs.head? = some c → isBlank c = false)
    (h2 : ∀ c, cs.getLast? = some c → isBlank c = false) : trimBlanks cs = cs := by
  have drop : ∀ l : List Char, (∀ c, l.head? = some c → isBlank c = false) → l.dropWhile isBlank = l := by
    intro l h
    cases l with
    | nil => rfl
    | cons c l => simp [h c rfl]
  rw [trimBlanks, drop cs h1, drop cs.reverse (by simpa using h2), List.reverse_reverse]

theorem trimBlanks_blank (cs : List Char) : trimBlanks (' ' :: cs) = trimBlanks cs := by
  simp [trimBlanks, isBlank]

/-- Plain characters have nothing to trim. -/
theorem trimBlanks_plain {cs : List Char} (h : cs.all plain = true) : trimBlanks cs = cs := by
  have hb : ∀ c ∈ cs, isBlank c = false := by
    intro c hc
    have e := List.all_eq_true.1 h c hc
    simp [plain] at e
    exact e.1.1
  exact trimBlanks_eq (fun c hc => hb c (List.mem_of_mem_head? hc)) (fun c hc => hb c (List.mem_of_getLast? hc))

/-- A text without the separator is one piece. -/
theorem pieces_none {sep : Char} {cs : List Char} (h : sep ∉ cs) : pieces sep cs = [cs] := by
  induction cs with
  | nil => rfl
  | cons c cs ih =>
    simp only [List.mem_cons, not_or] at h
    rw [pieces, if_neg (Ne.symm h.1), ih h.2]

/-- A text without the separator, the separator, and more. -/
theorem pieces_sep {sep : Char} {cs : List Char} (h : sep ∉ cs) (rest : List Char) :
    pieces sep (cs ++ sep :: rest) = cs :: pieces sep rest := by
  induction cs with
  | nil => simp [pieces]
  | cons c cs ih =>
    simp only [List.mem_cons, not_or] at h
    rw [List.cons_append, pieces, if_neg (Ne.symm h.1), ih h.2]

theorem not_mem_plain {cs : List Char} (h : cs.all plain = true) : ',' ∉ cs ∧ ';' ∉ cs := by
  constructor <;> intro hm <;> have e := List.all_eq_true.1 h _ hm <;> revert e <;> decide

/-- One operand after a blank. -/
theorem operandsOf_one {ds : List Char} {n : Nat} (h : Spells ds n) : operandsOf (' ' :: ds) = some [n] := by
  have hc : ',' ∉ ' ' :: ds := by simp [(not_mem_plain h.isPlain).1]
  have e : trimBlanks (' ' :: ds) = ds := by rw [trimBlanks_blank, trimBlanks_plain h.isPlain]
  simp [operandsOf, e, h.nonempty, pieces_none hc, h.value]

/-- Two operands, separated by a comma. -/
theorem operandsOf_two {ds es : List Char} {n m : Nat} (h : Spells ds n) (h' : Spells es m) :
    operandsOf (' ' :: (ds ++ ',' :: ' ' :: es)) = some [n, m] := by
  have hc : ',' ∉ ' ' :: ds := by simp [(not_mem_plain h.isPlain).1]
  have hc' : ',' ∉ ' ' :: es := by simp [(not_mem_plain h'.isPlain).1]
  have e : trimBlanks (' ' :: ds) = ds := by rw [trimBlanks_blank, trimBlanks_plain h.isPlain]
  have e' : trimBlanks (' ' :: es) = es := by rw [trimBlanks_blank, trimBlanks_plain h'.isPlain]
  have hp : pieces ',' (' ' :: (ds ++ ',' :: ' ' :: es)) = [' ' :: ds, ' ' :: es] := by
    rw [← List.cons_append, pieces_sep hc, pieces_none hc']
  have hne : trimBlanks (' ' :: (ds ++ ',' :: ' ' :: es)) ≠ [] := by
    rw [trimBlanks_blank]
    have hd : ∀ c, (ds ++ ',' :: ' ' :: es).head? = some c → isBlank c = false := by
      intro c hcc
      cases ds with
      | nil => exact absurd rfl h.nonempty
      | cons d ds =>
        cases hcc
        have e := List.all_eq_true.1 h.isPlain _ List.mem_cons_self
        simp [plain] at e
        exact e.1.1
    have hl : ∀ c, (ds ++ ',' :: ' ' :: es).getLast? = some c → isBlank c = false := by
      intro c hcc
      have e : (ds ++ ',' :: ' ' :: es).getLast? = es.getLast? := by
        cases hes : es.getLast? with
        | none => exact absurd (List.getLast?_eq_none_iff.1 hes) h'.nonempty
        | some x => simp [List.getLast?_append, List.getLast?_cons, hes]
      rw [e] at hcc
      have e := List.all_eq_true.1 h'.isPlain c (List.mem_of_getLast? hcc)
      simp [plain] at e
      exact e.1.1
    rw [trimBlanks_eq hd hl]
    simp
  simp [operandsOf, hne, hp, e, e', h.value, h'.value]

/-- The part of a line before a comment. -/
theorem takeWhile_comment {cs tail : List Char} (h : ';' ∉ cs) (ht : tail = [] ∨ tail.head? = some ';') :
    (cs ++ tail).takeWhile (· ≠ ';') = cs := by
  have hcs : ∀ c ∈ cs, decide (c ≠ ';') = true := by
    intro c hc
    simp only [decide_eq_true_eq]
    rintro rfl
    exact h hc
  rw [List.takeWhile_append_of_pos hcs]
  rcases ht with rfl | ht
  · simp
  · cases tail with
    | nil => cases ht
    | cons c tail =>
      cases ht
      simp

/-- What a line parses to: its mnemonic `m`, plain and in the table, and its operands `rest`. -/
theorem parseLine_eq {m rest tail : List Char} {op : AsmOp} {ns : List Nat} (hm : m.all plain = true) (hne : m ≠ [])
    (hl : spellings.lookup m = some op) (hr : rest = [] ∨ rest.head? = some ' ')
    (hlast : ∀ c, rest.getLast? = some c → isBlank c = false) (hs : ';' ∉ rest) (ho : operandsOf rest = some ns)
    (ht : tail = [] ∨ tail.head? = some ';') : parseLine (m ++ rest ++ tail) = .ok (some ⟨op, ns⟩) := by
  have hb : ∀ c ∈ m, isBlank c = false := by
    intro c hc
    have e := List.all_eq_true.1 hm c hc
    simp [plain] at e
    exact e.1.1
  have hsc : ';' ∉ m ++ rest := by
    simp [(not_mem_plain hm).2, hs]
  have htr : trimBlanks (m ++ rest) = m ++ rest := by
    refine trimBlanks_eq (fun c hc => ?_) (fun c hc => ?_)
    · cases m with
      | nil => exact absurd rfl hne
      | cons d m =>
        cases hc
        exact hb _ (by simp)
    · rcases hr with rfl | hr
      · rw [List.append_nil] at hc
        exact hb c (List.mem_of_getLast? hc)
      · cases hrl : rest.getLast? with
        | none =>
          rw [List.getLast?_eq_none_iff.1 hrl] at hr
          cases hr
        | some x =>
          simp only [List.getLast?_append, hrl, Option.some_or] at hc
          exact hlast c (by rw [hrl]; exact hc)
  have hb' : ∀ c ∈ m, (!isBlank c) = true := fun c hc => by rw [hb c hc]; rfl
  have htw : (m ++ rest).takeWhile (fun c => !isBlank c) = m := by
    rw [List.takeWhile_append_of_pos hb']
    rcases hr with rfl | hr
    · simp
    · cases rest with
      | nil => cases hr
      | cons c rest =>
        cases hr
        simp [isBlank]
  have hdw : (m ++ rest).dropWhile (fun c => !isBlank c) = rest := by
    rw [List.dropWhile_append_of_pos hb']
    rcases hr with rfl | hr
    · rfl
    · cases rest with
      | nil => cases hr
      | cons c rest =>
        cases hr
        simp [isBlank]
  rw [parseLine, takeWhile_comment hsc ht]
  simp only [htr, htw, hdw, hl, ho, List.append_eq_nil_iff, hne, false_and, if_false]

/-- A line with no operand. -/
theorem parseLine_none {m tail : List Char} {op : AsmOp} (hm : m.all plain = true) (hne : m ≠ [])
    (hl : spellings.lookup m = some op) (ht : tail = [] ∨ tail.head? = some ';') :
    parseLine (m ++ tail) = .ok (some ⟨op, []⟩) := by
  have e := parseLine_eq (rest := []) hm hne hl (.inl rfl) (by simp) (by simp) rfl ht
  simpa using e

theorem last_plain {cs : List Char} (h : cs.all plain = true) (c : Char) (hc : cs.getLast? = some c) :
    isBlank c = false := by
  have e := List.all_eq_true.1 h c (List.mem_of_getLast? hc)
  simp [plain] at e
  exact e.1.1

/-- A line with one operand. -/
theorem parseLine_one {m ds tail : List Char} {op : AsmOp} {n : Nat} (hm : m.all plain = true) (hne : m ≠ [])
    (hl : spellings.lookup m = some op) (h : Spells ds n) (ht : tail = [] ∨ tail.head? = some ';') :
    parseLine (m ++ ' ' :: ds ++ tail) = .ok (some ⟨op, [n]⟩) := by
  refine parseLine_eq hm hne hl (.inr rfl) (fun c hc => ?_) ?_ (operandsOf_one h) ht
  · cases hd : ds.getLast? with
    | none => exact absurd (List.getLast?_eq_none_iff.1 hd) h.nonempty
    | some x =>
      rw [List.getLast?_cons, hd] at hc
      exact last_plain h.isPlain c (by rw [hd]; exact hc)
  · simp [(not_mem_plain h.isPlain).2]

/-- A line with two operands. -/
theorem parseLine_two {m ds es tail : List Char} {op : AsmOp} {n k : Nat} (hm : m.all plain = true) (hne : m ≠ [])
    (hl : spellings.lookup m = some op) (h : Spells ds n) (h' : Spells es k)
    (ht : tail = [] ∨ tail.head? = some ';') :
    parseLine (m ++ ' ' :: (ds ++ ',' :: ' ' :: es) ++ tail) = .ok (some ⟨op, [n, k]⟩) := by
  refine parseLine_eq hm hne hl (.inr rfl) (fun c hc => ?_) ?_ (operandsOf_two h h') ht
  · cases hd : es.getLast? with
    | none => exact absurd (List.getLast?_eq_none_iff.1 hd) h'.nonempty
    | some x =>
      have e : (' ' :: (ds ++ ',' :: ' ' :: es)).getLast? = some x := by
        simp [List.getLast?_append, List.getLast?_cons, hd]
      rw [e] at hc
      exact last_plain h'.isPlain c (by rw [hd]; exact hc)
  · simp [(not_mem_plain h.isPlain).2, (not_mem_plain h'.isPlain).2]

end Sys2Proof.Machine
end

