-- ==== Sys2Proof/Laws/Encoding.lean ====
section
/-! SUPPORT. The fields of a packed word, and the word its bytes spell. -/

namespace Sys2Proof

theorem fieldOp_packWord (op : BitVec 4) (a b : Byte) : fieldOp (packWord op a b) = op := by
  ext k hk
  simp [fieldOp, packWord]
  grind

theorem fieldZ0_packWord (op : BitVec 4) (a b : Byte) : fieldZ0 (packWord op a b) = 0 := by
  ext k hk
  simp [fieldZ0, packWord]
  grind

theorem fieldA_packWord (op : BitVec 4) (a b : Byte) : fieldA (packWord op a b) = a := by
  ext k hk
  simp [fieldA, packWord]
  grind

theorem fieldB_packWord (op : BitVec 4) (a b : Byte) : fieldB (packWord op a b) = b := by
  ext k hk
  simp [fieldB, packWord]
  grind

theorem fieldZ1_packWord (op : BitVec 4) (a b : Byte) : fieldZ1 (packWord op a b) = 0 := by
  ext k hk
  simp [fieldZ1, packWord]
  grind

/-- Every instruction is well-formed: its operands are bytes. -/
theorem Laws.wellFormed_all (i : Instr) : i.wellFormed = true := by
  cases i <;> simp [Instr.wellFormed, Instr.source, Source.wellFormed, AsmOp.arity, AsmOp.operandInRange] <;> omega

/-- The fields of a command select the command. -/
theorem commandOf_fields (i : Instr) : commandOf i.opcode i.operandA i.operandB = some i := by
  cases i <;> rfl

/-- A word whose reserved fields are zero is packed from its other fields. -/
theorem packWord_fields (w : Word32) (h0 : fieldZ0 w = 0) (h1 : fieldZ1 w = 0) :
    packWord (fieldOp w) (fieldA w) (fieldB w) = w := by
  have z0 : ∀ j, j < 4 → w.getLsbD (4 + j) = false := fun j hj => by
    have h := congrArg (·.getLsbD j) h0
    simpa [fieldZ0, hj] using h
  have z1 : ∀ j, j < 8 → w.getLsbD (24 + j) = false := fun j hj => by
    have h := congrArg (·.getLsbD j) h1
    simpa [fieldZ1, hj] using h
  apply BitVec.eq_of_getLsbD_eq
  intro k hk
  have hc : k < 4 ∨ (∃ j, j < 4 ∧ k = 4 + j) ∨ (∃ j, j < 8 ∧ k = 8 + j) ∨ (∃ j, j < 8 ∧ k = 16 + j) ∨
      ∃ j, j < 8 ∧ k = 24 + j := by
    by_cases h4 : k < 4
    · exact .inl h4
    by_cases h8 : k < 8
    · exact .inr (.inl ⟨k - 4, by omega, by omega⟩)
    by_cases h16 : k < 16
    · exact .inr (.inr (.inl ⟨k - 8, by omega, by omega⟩))
    by_cases h24 : k < 24
    · exact .inr (.inr (.inr (.inl ⟨k - 16, by omega, by omega⟩)))
    · exact .inr (.inr (.inr (.inr ⟨k - 24, by omega, by omega⟩)))
  rcases hc with h | ⟨j, hj, rfl⟩ | ⟨j, hj, rfl⟩ | ⟨j, hj, rfl⟩ | ⟨j, hj, rfl⟩ <;>
    simp [packWord, fieldOp, fieldA, fieldB] <;> grind

/-- The bytes of a word spell it. -/
theorem wordOfBytes_wordBytes (w : Word32) :
    wordOfBytes (w.extractLsb' 0 8) (w.extractLsb' 8 8) (w.extractLsb' 16 8) (w.extractLsb' 24 8) = w := by
  apply BitVec.eq_of_getLsbD_eq
  intro k hk
  simp [wordOfBytes]
  grind

end Sys2Proof
end

