-- ==== Sys2Proof/Laws/Monitor.lean ====
section
/-! SUPPORT. The bus monitor and the scan for START and STOP on a paced waveform: delays do not matter, one bit slot
closes with its bit, and what each command's waveform does to the scan. -/

namespace Sys2Proof.Machine

/-- What the monitor does on an act, at whatever time. -/
def monitorAct (m : MonitorState) : Act → MonitorState
  | .drive .data v => monitorData v m
  | .drive .clock v => monitorClock v m
  | .sample b => monitorSample b m

/-- The monitor reads a paced waveform act by act. -/
theorem foldl_monitorStep_paced (h t : Nat) (acts : List Act) (m : MonitorState) :
    (paced h t acts).foldl monitorStep m = acts.foldl monitorAct m := by
  induction acts generalizing t m with
  | nil => rfl
  | cons a acts ih =>
    have e : monitorStep (monitorStep m (eventAt t a)) (.wait h t) = monitorAct m a := by
      rcases a with ⟨_ | _, v⟩ | b <;> rfl
    rw [paced, List.foldl_cons, List.foldl_cons, e, ih, List.foldl_cons]

/-- The monitor of the events a waveform adds to a state's trace. -/
theorem monitor_pacedFrom (s : State) (acts : List Act) (c d : Bit) :
    monitor (pacedFrom s acts) c d = monitorEnd (acts.foldl monitorAct (monitorInit c d)) := by
  rw [monitor, pacedFrom, foldl_monitorStep_paced]

/-- The monitor with CLOCK low and no open slot. -/
abbrev lowState (d : Bit) (bs : List Bit) (out : List Token) : MonitorState := ⟨false, d, bs, .none, out⟩

/-- One data bit sent from CLOCK low is one bit slot. -/
theorem foldl_txBitActs (b d : Bit) (bs : List Bit) (out : List Token) (h : bs.length < 8) :
    (txBitActs b).foldl monitorAct (lowState d bs out) = lowState b (bs ++ [b]) out := by
  have h8 : bs.length ≠ 8 := by omega
  cases b <;> cases d <;>
    simp [txBitActs, monitorAct, monitorData, monitorClock, monitorFall, monitorBit, startCondition,
      stopCondition, h8]

/-- The accumulator reads back the wire order of a byte. -/
theorem byteOfBits_bitsMsb (v : Byte) : byteOfBits (bitsMsb v) = v := by
  revert v
  decide

/-- The eight data bits of a byte sent from CLOCK low are eight bit slots. -/
theorem foldl_bitsMsb (v : Byte) (d : Bit) (out : List Token) :
    ((bitsMsb v).flatMap txBitActs).foldl monitorAct (lowState d [] out) =
      lowState (bitAt v 0) (bitsMsb v) out := by
  simp only [bitsMsb, List.flatMap_cons, List.flatMap_nil, List.append_nil, List.foldl_append]
  simp [foldl_txBitActs]

/-- What the scan for START and STOP does on an act, at whatever time. -/
def claimAct (m : ClaimScan) : Act → ClaimScan
  | .drive .data v => ⟨some (.data, v), m.started && !(v && decide (m.last = some (.clock, true)))⟩
  | .drive .clock v => ⟨some (.clock, v), m.started || (!v && decide (m.last = some (.data, false)))⟩
  | .sample _ => { m with last := none }

/-- The scan of a trace with a paced waveform after it. -/
theorem claimScan_append_paced (tr : List Event) (h t : Nat) (acts : List Act) :
    claimScan (tr ++ paced h t acts) = acts.foldl claimAct (claimScan tr) := by
  rw [claimScan, List.foldl_append, ← claimScan]
  generalize claimScan tr = m
  induction acts generalizing t m with
  | nil => rfl
  | cons a acts ih =>
    have e : claimStep (claimStep m (eventAt t a)) (.wait h t) = claimAct m a := by
      rcases a with ⟨_ | _, v⟩ | b <;> rfl
    rw [paced, List.foldl_cons, List.foldl_cons, e, ih, List.foldl_cons]

/-- A wait does nothing to the scan. -/
theorem claimScan_append_wait (tr : List Event) (n t : Nat) : claimScan (tr ++ [.wait n t]) = claimScan tr := by
  rw [claimScan, List.foldl_append]; rfl

section
variable (m : ClaimScan)

/-- START begins a claim from any trace. -/
theorem claim_startActs : startActs.foldl claimAct m = ⟨some (.clock, false), true⟩ := by
  simp [startActs, claimAct]

/-- STOP ends a claim from any trace. -/
theorem claim_stopActs : stopActs.foldl claimAct m = ⟨some (.data, true), false⟩ := by
  simp [stopActs, claimAct]

/-- Bits sent after anything but a rising CLOCK neither begin nor end a claim. -/
theorem claim_txBits (bs : List Bit) (h : m.last ≠ some (.clock, true)) :
    (bs.flatMap txBitActs).foldl claimAct m = ⟨if bs = [] then m.last else some (.clock, false), m.started⟩ := by
  induction bs generalizing m with
  | nil => rfl
  | cons b bs ih =>
    rw [List.flatMap_cons, List.foldl_append, ih _ (by simp [txBitActs, claimAct])]
    cases b <;> simp [txBitActs, claimAct, h]

theorem claim_sendackActs (a : Byte) (h : m.last ≠ some (.clock, true)) :
    (sendackActs a).foldl claimAct m = ⟨some (.clock, false), m.started⟩ := by
  have e := claim_txBits m [ackLevel a] h
  simpa [sendackActs] using e

theorem claim_txActs (v : Byte) (b : Bit) (h : m.last ≠ some (.clock, true)) :
    (txActs v b).foldl claimAct m = ⟨some (.clock, false), m.started⟩ := by
  rw [txActs, txLeadActs, List.foldl_append, List.foldl_append, claim_txBits m _ h]
  simp [bitsMsb, claimAct]

theorem claim_txActs_all (bytes : List Byte) (h : m.last ≠ some (.clock, true)) :
    ((bytes.flatMap fun v => txActs v false).foldl claimAct m).started = m.started ∧
      ((bytes.flatMap fun v => txActs v false).foldl claimAct m).last ≠ some (.clock, true) := by
  induction bytes generalizing m with
  | nil => exact ⟨rfl, h⟩
  | cons v bytes ih =>
    rw [List.flatMap_cons, List.foldl_append, claim_txActs m v _ h]
    exact ih _ (by simp)

theorem claim_rxActs (bs : List Bit) (h : m.last ≠ some (.data, false)) :
    (rxActs bs).foldl claimAct m = ⟨some (.clock, false), m.started⟩ := by
  rw [rxActs, List.foldl_append]
  have e : ((bs.flatMap rxBitActs).foldl claimAct m).started = m.started ∧
      ((bs.flatMap rxBitActs).foldl claimAct m).last ≠ some (.data, false) := by
    induction bs generalizing m with
    | nil => exact ⟨rfl, h⟩
    | cons b bs ih =>
      rw [List.flatMap_cons, List.foldl_append]
      have e : (rxBitActs b).foldl claimAct m = ⟨none, m.started⟩ := by simp [rxBitActs, claimAct, h]
      rw [e]
      exact ih _ (by simp)
  simp [claimAct, e.1, e.2]

/-- A START and acknowledged bytes after it. -/
theorem claim_ackedActs (bytes : List Byte) :
    ((ackedActs bytes).foldl claimAct m).started = true ∧
      ((ackedActs bytes).foldl claimAct m).last ≠ some (.clock, true) := by
  rw [ackedActs, List.foldl_append, claim_startActs]
  exact claim_txActs_all _ _ (by simp)

theorem claim_writeAbortActs (p : Params) (i v : Byte) (k : Nat) :
    (writeAbortActs p i v k).foldl claimAct m = ⟨some (.clock, false), true⟩ := by
  have e := claim_ackedActs m ((writeBytes p i v).take (k - 1))
  rw [writeAbortActs, List.foldl_append, claim_txActs _ _ _ e.2, e.1]

theorem claim_writeDoneActs (p : Params) (i v : Byte) :
    (writeDoneActs p i v).foldl claimAct m = ⟨some (.data, true), false⟩ := by
  rw [writeDoneActs, List.foldl_append, claim_stopActs]

end

end Sys2Proof.Machine
end

