-- ==== Sys2Proof/Laws/PerInstr.lean ====
section
/-! SUPPORT. The per-instruction family of LAWS.json: what every instruction's word holds in its fixed fields. -/

namespace Sys2Proof.Laws.FixedFields

/-- The word of `i` holds its opcode, and zeros in both reserved fields (R49, R53). -/
def Statement (i : Instr) : Prop :=
  fieldOp (encode i) = i.opcode ∧ fieldZ0 (encode i) = 0 ∧ fieldZ1 (encode i) = 0

/-- Every packed word holds its opcode and zeros in the reserved fields. -/
theorem of_packWord (i : Instr) : Statement i :=
  ⟨fieldOp_packWord _ _ _, fieldZ0_packWord _ _ _, fieldZ1_packWord _ _ _⟩

theorem delay : Statement .delay := of_packWord _
theorem start : Statement .start := of_packWord _
theorem stop : Statement .stop := of_packWord _
theorem tx (v : Byte) : Statement (.tx v) := of_packWord _
theorem rx : Statement .rx := of_packWord _
theorem sendack (a : Byte) : Statement (.sendack a) := of_packWord _
theorem readack : Statement .readack := of_packWord _
theorem write (i v : Byte) : Statement (.write i v) := of_packWord _

end Sys2Proof.Laws.FixedFields
end

