-- ==== Sys2Proof/Laws/Run.lean ====
section
/-! SUPPORT. Runs of steps: one more step at either end, a run that has ended, and what an acknowledged trace says of
its parts. -/

namespace Sys2Proof.Machine

/-- A run whose first step answers `t` goes on from `t`. -/
theorem runFor_succ {s t : State} (h : step s = .next t) (n : Nat) : runFor (n + 1) s = runFor n t := by
  simp only [runFor, h]

/-- A run goes on by a step of the state it has reached. -/
theorem runFor_step {n : Nat} {s t u : State} (h : runFor n s = some t) (hs : step t = .next u) :
    runFor (n + 1) s = some u := by
  induction n generalizing s with
  | zero =>
    cases h
    simp only [runFor, hs]
  | succ n ih =>
    cases hq : step s with
    | next q =>
      rw [runFor_succ hq] at h ⊢
      exact ih h
    | fault f => simp [runFor, hq] at h
    | refused r => simp [runFor, hq] at h

/-- What holds of the start and is kept by every step of the run holds of every state of the run. -/
theorem runFor_induction {s : State} (P : State → Prop) (h0 : P s)
    (hstep : ∀ n t u, runFor n s = some t → P t → step t = .next u → P u) :
    ∀ n t, runFor n s = some t → P t := by
  have key : ∀ n m a, runFor m s = some a → P a → ∀ t, runFor n a = some t → P t := by
    intro n
    induction n with
    | zero =>
      intro m a _ ha t h
      cases h
      exact ha
    | succ n ih =>
      intro m a hm ha t h
      cases hq : step a with
      | next q =>
        rw [runFor_succ hq] at h
        exact ih (m + 1) q (runFor_step hm hq) (hstep m a q hm ha hq) t h
      | fault f => simp [runFor, hq] at h
      | refused r => simp [runFor, hq] at h
  exact fun n t h => key n 0 s rfl h0 t h

/-- A program that has ended leaves the run where it is. -/
theorem runFor_ended {s : State} (h : s.fault = none) (hp : s.program[s.pc]? = none) (n : Nat) :
    runFor n s = some s := by
  have e : step s = .next s := by rw [step_live h, hp]
  induction n with
  | zero => rfl
  | succ n ih => rw [runFor_succ e, ih]

/-- An acknowledged trace has no acknowledge sample that reads 1. -/
theorem nackAt_of_allAcked {tr : List Event} (h : allAcked tr = true) (k : Nat) : nackAt tr k = false := by
  rcases Nat.lt_or_ge k tr.length with hk | hk
  · have e := List.all_eq_true.1 h k (List.mem_range.2 hk)
    simpa using e
  · simp [nackAt, List.getElem?_eq_none hk]

/-- An acknowledge sample in a part of a trace is one in the whole. -/
theorem nackAt_append (a b : List Event) (k : Nat) (h : nackAt b k = true) : nackAt (a ++ b) (a.length + k) = true := by
  unfold nackAt at h ⊢
  split at h
  · rename_i x y hx hy
    have h4 : 4 ≤ k := by
      by_contra hn
      simp [hn] at hy
    rw [if_pos h4] at hy
    rw [if_pos (by omega), List.getElem?_append_right (by omega), List.getElem?_append_right (by omega)]
    have e1 : a.length + k - a.length = k := by omega
    have e2 : a.length + k - 4 - a.length = k - 4 := by omega
    rw [e1, e2, hx, hy]
    exact h
  · cases h

/-- A refused byte at the end of a waveform is an acknowledge sample that reads 1. -/
theorem nackAt_refused (tr : List Event) (h t : Nat) (acts : List Act) (v : Byte) :
    nackAt (tr ++ paced h t (acts ++ txActs v true)) (tr.length + ((paced h t acts).length + 52)) = true := by
  apply nackAt_append
  rw [paced_append]
  apply nackAt_append
  rfl

end Sys2Proof.Machine
end

