-- ==== Sys2Proof/Tests/Slice0.lean ====
section
/-! SUPPORT. Tests: the well-formedness smoke test, words written out from the spec's encodings, one step of each
command with the results of 95_test_vectors, and a witness for the hypotheses of every statement. -/

namespace Sys2Proof.Tests

open Sys2Proof Sys2Proof.Machine

/-! ### Helpers -/

/-- A state right after reset but for its line levels, with the environment's first answers fixed. -/
def entry (scl sda : Bit) (script : List Bit) : State :=
  { State.reset with scl := scl, sda := sda, params := { Params.default with script := script } }

/-- The next state of an outcome, where it is one. -/
def nextOf : Host.Outcome State Fault Refusal → Option State
  | .next t => some t
  | .fault _ => none
  | .refused _ => none

/-- The state after a command. -/
def after (i : Instr) (s : State) : State := (nextOf (exec i s)).getD s

/-- A state with a host program loaded. -/
def loaded (ws : List Word32) (s : State) : State := loadProgram ws s

/-- The state after one step. -/
def stepped (s : State) : State := (nextOf (step s)).getD s

theorem step_stepped {s : State} (h : (nextOf (step s)).isSome = true) : step s = .next (stepped s) := by
  unfold stepped
  cases hs : step s <;> simp_all [nextOf]

/-! ### Well-formedness: one ill-formed term for each check -/

theorem test_wf_missing_operand : (Source.mk .tx []).wellFormed = false := by decide
theorem test_wf_operand_to_none : (Source.mk .stop [1]).wellFormed = false := by decide
theorem test_wf_operand_out_of_range : (Source.mk .write [1, 256]).wellFormed = false := by decide
theorem test_wf_largest_operands : (Source.mk .write [0, 255]).wellFormed = true := by decide
theorem test_wf_wait_any_count : (Source.mk .wait [300]).wellFormed = true := by decide
theorem test_params_half_zero : ({ Params.default with halfUs := 0 }).wellFormed = false := by decide
theorem test_params_count_zero : ({ Params.default with settleCount := 0 }).wellFormed = false := by decide
theorem test_params_unit_one : ({ Params.default with settleUnitUs := 1 }).wellFormed = false := by decide
theorem test_params_least : ({ Params.default with halfUs := 1, settleCount := 1, settleUnitUs := 2 }).wellFormed =
    true := by decide

/-! ### Decoding: words written out from R49 and R51, `Z1 B A Z0 OP` -/

theorem test_decode_delay : decode 0b00000000_00000000_00000000_0000_0001 = .command .delay := by decide
theorem test_decode_start : decode 0b00000000_00000000_00000000_0000_0010 = .command .start := by decide
theorem test_decode_stop : decode 0b00000000_00000000_00000000_0000_0011 = .command .stop := by decide
theorem test_decode_tx : decode 0b00000000_00000000_10100101_0000_0100 = .command (.tx 0xA5) := by decide
theorem test_decode_rx : decode 0b00000000_00000000_00000000_0000_0101 = .command .rx := by decide
theorem test_decode_sendack : decode 0b00000000_00000000_10000000_0000_0110 = .command (.sendack 0x80) := by decide
theorem test_decode_readack : decode 0b00000000_00000000_00000000_0000_0111 = .command .readack := by decide
theorem test_decode_write : decode 0b00000000_01011010_00000001_0000_1000 = .command (.write 1 90) := by decide
theorem test_decode_reserved_z0 : decode 0x000000F4 = .reject .reservedField := by decide
theorem test_decode_reserved_z1 : decode 0x01000001 = .reject .reservedField := by decide
theorem test_decode_unused_a : decode 0x00000102 = .reject .reservedField := by decide
theorem test_decode_unused_b : decode 0x00FF0006 = .reject .reservedField := by decide
theorem test_decode_illegal_first : decode 0xFFFFFFFF = .reject .illegalOpcode := by decide
theorem test_table_word_write : decodeTableWord 32 0x005A0108 = some (.write 1 90) := by decide
theorem test_table_word_refused : decodeTableWord 32 0x00000009 = none := by decide
theorem test_bytes_of_write : wordBytes (encode (.write 1 90)) = [0x08, 0x01, 0x5A, 0x00] := by decide
theorem test_bytes_truncated : decodeBytes [0x08, 0x01, 0x5A] = .truncated := by decide

/-! ### The assembler: the spellings of R56 -/

theorem test_assemble_tx :
    assembleLine ['T', 'X', ' ', '0', 'x', '5', 'A', ' ', ';', 'c'] = .ok [0x00005A04] := by decide
theorem test_assemble_write :
    assembleLine ['W', 'R', 'I', 'T', 'E', ' ', '1', ',', ' ', '9', '0'] = .ok [0x005A0108] := by decide
theorem test_assemble_refuses_operand : assembleLine ['S', 'T', 'O', 'P', ' ', '1'] = .error .badOperands := by decide
theorem test_assemble_wait : assembleLine ['W', 'A', 'I', 'T', ' ', '3'] = .ok [1, 1, 1] := by decide

/-! ### One step of each command, with the results of 95_test_vectors -/

/-- L2.2 #1. -/
theorem test_delay : (after .delay State.reset).trace = [.wait 100 0] ∧ (after .delay State.reset).time = 100 := by
  decide
/-- L2.3: from idle, `D0 W C0 W`, time 200, monitor `[S]`. -/
theorem test_start : (after .start State.reset).trace =
    [.drive .data false 0, .wait 100 0, .drive .clock false 100, .wait 100 100] ∧
    monitor (after .start State.reset).trace true true = [.start] := by decide
/-- L2.3: from (0, 1) no START condition. -/
theorem test_start_claimed : monitor (after .start (entry false true [])).trace false true = [] := by decide
/-- L2.4: from idle the monitor reads `[S, P]`. -/
theorem test_stop : monitor (after .stop State.reset).trace true true = [.start, .stop] ∧
    (after .stop State.reset).time = 300 := by decide
/-- L2.4: from (0, 1), `[P]`, and both lines end high. -/
theorem test_stop_claimed : monitor (after .stop (entry false true [])).trace false true = [.stop] ∧
    idle (after .stop (entry false true [])) = true := by decide
/-- L2.5 #3: TX 0xA5 acknowledged. -/
theorem test_tx_acked : (after (.tx 0xA5) (entry false false [false])).ack = some true ∧
    monitor (after (.tx 0xA5) (entry false false [false])).trace false false = [.byte 0xA5 false] := by decide +kernel
/-- L2.5 #4: TX 0x5A refused, 56 events in 2800 µs. -/
theorem test_tx_nacked : (after (.tx 0x5A) (entry false false [true])).ack = some false ∧
    (after (.tx 0x5A) (entry false false [true])).time = 2800 ∧
    (after (.tx 0x5A) (entry false false [true])).trace.length = 56 := by decide
/-- L2.6 #1: the samples 1 1 0 0 0 0 1 1 give 0xC3. -/
theorem test_rx : (after .rx (entry false true [true, true, false, false, false, false, true, true])).resp =
    [.byte 0xC3] := by decide
/-- L2.6 #4: the last sample is bit 0; 50 events in 2500 µs. -/
theorem test_rx_last : (after .rx (entry false true [false, false, false, false, false, false, false, true])).resp =
    [.byte 0x01] ∧
    (after .rx (entry false true [false, false, false, false, false, false, false, true])).time = 2500 := by decide
/-- L2.7 #1: acknowledge. -/
theorem test_sendack_ack : (after (.sendack 0) (entry false false [])).sda = false ∧
    monitor (after (.sendack 0) (entry false false [])).trace false false = [.unfinished [false]] := by decide
/-- L2.7 #3: 0x80 is non-acknowledge. -/
theorem test_sendack_nack : (after (.sendack 0x80) (entry false false [])).sda = true := by decide
/-- L2.8 #1: after reset, ACK_UNWRITTEN with READACK's word. -/
theorem test_readack_unwritten : (after .readack State.reset).fault = some ⟨.ackUnwritten, 0x00000007⟩ := by decide
/-- L2.8 #3: a refused TX reads 0. -/
theorem test_readack_flag :
    (after .readack { State.reset with ack := some false, ackFresh := true }).resp = [.flag false] := by decide
/-- L2.9 #1: WRITE 1, 90 acknowledged, through the step: 179 events, 108 900 µs, Flag(1). -/
theorem test_write_acked :
    (stepped (loaded [0x005A0108] (entry true true [false, false, false]))).resp = [.flag true] ∧
    (stepped (loaded [0x005A0108] (entry true true [false, false, false]))).time = 108900 ∧
    (stepped (loaded [0x005A0108] (entry true true [false, false, false]))).trace.length = 179 := by decide +kernel
/-- L2.9 #2: refused at byte 2: 116 events, 5800 µs, Flag(0), no STOP. -/
theorem test_write_nacked_at_2 :
    (after (.write 1 90) (entry true true [false, true])).resp = [.flag false] ∧
    (after (.write 1 90) (entry true true [false, true])).time = 5800 ∧
    monitor (after (.write 1 90) (entry true true [false, true])).trace true true =
      [.start, .byte 0x5A false, .byte 0x01 true] := by decide +kernel
/-- L2.10 #5: a rejected word is recorded, and nothing else happens. -/
theorem test_step_rejected : (stepped (loaded [0xFFFFFFFF] State.reset)).fault =
    some ⟨.illegalOpcode, 0xFFFFFFFF⟩ ∧ (stepped (loaded [0xFFFFFFFF] State.reset)).pc = 0 := by decide
/-- R62 and L2.11: with a half period of 50, DELAY takes 50 µs. -/
theorem test_half_period_is_a_parameter :
    (after .delay { State.reset with params := { Params.default with halfUs := 50 } }).time = 50 := by decide

/-! ### Readings of a trace -/

/-- R47: CLOCK at 0 is no claim without a START, neither at reset nor after a SENDACK. -/
theorem test_clock_low_is_no_claim : claimed (entry false true []) = false ∧
    claimed (after (.sendack 0) (entry false true [])) = false := by decide
/-- R47, R77: a START, and an aborted WRITE, leave the bus claimed; a STOP after it does not. -/
theorem test_claimed_after_start : claimed (after .start State.reset) = true ∧
    claimed (after (.write 1 90) (entry true true [true])) = true ∧
    claimed (after .stop (after .start State.reset)) = false := by decide
/-- 95_test_vectors section 0: a TX's acknowledge sample counts, the samples of an RX do not. -/
theorem test_acknowledge_samples : allAcked (after (.tx 0xFF) (entry false true [true])).trace = false ∧
    allAcked (after (.tx 0xFF) (entry false true [false])).trace = true ∧
    allAcked (after .rx (entry false true [true, true, true, true, true, true, true, true])).trace = true := by
  decide +kernel

/-! ### Witnesses for the hypotheses of the statements -/

/-- Live: the hypothesis of every command statement; also idle, and CLOCK high. -/
theorem witness_live : Live State.reset ∧ idle State.reset = true ∧ State.reset.scl = true ∧
    State.reset.sda = true := by decide
theorem witness_well_formed : (Instr.write 0xFF 0x00).wellFormed = true := by decide
theorem witness_accepted_word : decode 0x00FFFF08 = .command (.write 0xFF 0xFF) := by decide
theorem witness_not_rejected : decode 0x0000FF04 ≠ .reject .illegalOpcode ∧
    decode 0x0000FF04 ≠ .reject .reservedField := by decide
theorem witness_illegal_zero : (0x12345670 : Word32) &&& 0xF = 0 := by decide
theorem witness_illegal_nine : 9 ≤ ((0x00000009 : Word32) &&& 0xF).toNat := by decide
theorem witness_no_pseudo : expand ⟨.tx, [255]⟩ = some [.tx 0xFF] ∧ AsmOp.tx ≠ .ack ∧ AsmOp.tx ≠ .nack ∧
    AsmOp.tx ≠ .wait := by decide
theorem witness_step_runs : Live (loaded [0x00000002] State.reset) ∧
    (loaded [0x00000002] State.reset).program[(loaded [0x00000002] State.reset).pc]? = some 0x00000002 ∧
    decode 0x00000002 = .command .start := by decide
theorem witness_fetch_word : Live State.reset ∧ decodeTableWord 32 0x00000002 = some .start := by decide
theorem witness_step_next : step (loaded [0x00000002] State.reset) =
    .next (stepped (loaded [0x00000002] State.reset)) := rfl
theorem witness_step_next_fault : step (loaded [0x00000000] State.reset) =
    .next (stepped (loaded [0x00000000] State.reset)) := rfl
theorem witness_ended : Live State.reset ∧ State.reset.program.length ≤ State.reset.pc := by decide
theorem witness_same_trace : (entry false true []).params = State.reset.params ∧
    (entry false true []).trace = State.reset.trace := by decide
/-- No answer is fixed: with an empty script, and with a script of one answer used up by a sample. -/
theorem witness_no_script : State.reset.params.script[sampleCount State.reset.trace]? = none ∧
    (sample (entry true true [true])).params.script[sampleCount (sample (entry true true [true])).trace]? = none := by
  decide
theorem witness_script : (entry true true [true]).params.script[sampleCount (entry true true [true]).trace]? =
    some true := by decide
/-- READACK with a fresh flag, with no flag, and with a stale flag. -/
theorem witness_flag_fresh : Live { State.reset with ack := some true, ackFresh := true } := by decide
theorem witness_flag_unwritten : Live State.reset ∧ State.reset.ack = none := by decide
theorem witness_flag_stale : Live { State.reset with ack := some true } ∧
    ({ State.reset with ack := some true } : State).ackFresh = false := by decide
theorem witness_device_acks : DeviceAcks (entry true true [false, false, false]) 1 90 := by decide
/-- A WRITE from a claimed bus, and from DATA low with CLOCK high. -/
theorem witness_device_acks_levels : DeviceAcks (entry false false [false, false, false]) 1 90 ∧
    DeviceAcks (entry true false [false, false, false]) 1 90 ∧
    DeviceNacksAt (entry false false [false, true]) 1 90 2 ∧ DeviceNacksAt (entry true false [true]) 1 90 1 := by
  decide
theorem witness_device_nacks_1 : DeviceNacksAt (entry true true [true]) 1 90 1 := by decide
theorem witness_device_nacks_2 : DeviceNacksAt (entry true true [false, true]) 1 90 2 := by decide
theorem witness_device_nacks_3 : DeviceNacksAt (entry true true [false, false, true]) 1 90 3 := by decide
theorem witness_rejected : Live (loaded [0x00000000] State.reset) ∧
    (loaded [0x00000000] State.reset).program[(loaded [0x00000000] State.reset).pc]? = some 0 ∧
    decode 0x00000000 = .reject .illegalOpcode := by decide
theorem witness_exec_fault : exec .readack State.reset = .next (after .readack State.reset) ∧
    (after .readack State.reset).fault = some ⟨.ackUnwritten, 0x00000007⟩ := ⟨rfl, by decide⟩
theorem witness_issue_fault : issue 0x00000009 State.reset = .next (raise .illegalOpcode 0x00000009 State.reset) ∧
    (raise .illegalOpcode 0x00000009 State.reset).fault ≠ none := ⟨rfl, by decide⟩
theorem witness_stuck : (raise .illegalOpcode 0 State.reset).fault = some ⟨.illegalOpcode, 0⟩ := by decide
/-- Every command has a next state that records no fault (the arms of the table of R30). -/
theorem witness_exec_next : (exec .delay State.reset = .next (after .delay State.reset)) ∧
    (exec .start State.reset = .next (after .start State.reset)) ∧
    (exec .stop State.reset = .next (after .stop State.reset)) ∧
    (exec (.tx 0xFF) State.reset = .next (after (.tx 0xFF) State.reset)) ∧
    (exec .rx State.reset = .next (after .rx State.reset)) ∧
    (exec (.sendack 0) State.reset = .next (after (.sendack 0) State.reset)) := ⟨rfl, rfl, rfl, rfl, rfl, rfl⟩
theorem witness_exec_readack : exec .readack { State.reset with ack := some true, ackFresh := true } =
    .next (after .readack { State.reset with ack := some true, ackFresh := true }) := rfl
theorem witness_exec_write_done : exec (.write 1 90) (entry true true [false, false, false]) =
      .next (after (.write 1 90) (entry true true [false, false, false])) ∧
    (after (.write 1 90) (entry true true [false, false, false])).resp = [.flag true] ∧
    (after (.write 1 90) (entry true true [false, false, false])).scl = true := ⟨rfl, by decide, by decide⟩
theorem witness_exec_write_refused : exec (.write 1 90) (entry true true [true]) =
      .next (after (.write 1 90) (entry true true [true])) ∧
    (after (.write 1 90) (entry true true [true])).resp = [.flag false] := ⟨rfl, by decide⟩
/-- A bus call in a state whose flag has been written. -/
theorem witness_stale_after_bus_call : ({ State.reset with ack := some true } : State).ack ≠ none ∧
    exec .start { State.reset with ack := some true } =
      .next (after .start { State.reset with ack := some true }) := ⟨by decide, rfl⟩
theorem witness_clock_high : (after .stop State.reset).scl = true ∧ (after .delay State.reset).scl = true := by decide
/-- The invariants at reset, with a step to take. -/
theorem witness_trace_inv : TraceInv (loaded [0x00000002] State.reset) :=
  ⟨rfl, rfl, rfl, rfl, rfl, rfl, fun k b t h => by simp [loaded, loadProgram, State.reset, State.resetWith] at h⟩
theorem witness_flag_inv : FlagInv { State.reset with scl := false, ack := some true, ackFresh := true } := by decide
theorem witness_host_inv : HostInv (loaded [0x00000002] State.reset) :=
  ⟨rfl, by decide, fun r h => by simp [loaded, loadProgram, State.reset, State.resetWith] at h⟩
theorem witness_at_rest : AtRest (loaded [0x00000002] State.reset) ∧ AtRest (after .stop State.reset) := by decide
theorem witness_bus_idle : BusIdle Params.default ⟨true, true⟩ := by decide
/-- A run of one START: no fault in any state of it, and a command to go. -/
theorem witness_run_no_fault : RunNoFault (loaded [0x00000002] State.reset) ∧
    (loaded [0x00000002] State.reset).pc + 1 ≤ (loaded [0x00000002] State.reset).program.length := by
  refine ⟨fun n t h => ?_, by decide⟩
  cases n with
  | zero => cases h; rfl
  | succ n =>
    rw [runFor_succ (step_stepped (by decide)), runFor_ended rfl (by decide)] at h
    cases h; rfl
/-- A run of one WRITE that the device acknowledges throughout. -/
theorem witness_run_device_acks : RunDeviceAcks (loaded [0x005A0108] (entry true true [false, false, false])) ∧
    (loaded [0x005A0108] (entry true true [false, false, false])).ack ≠ some false ∧
    .flag false ∉ (loaded [0x005A0108] (entry true true [false, false, false])).resp := by
  refine ⟨fun n t h => ?_, by decide, by decide⟩
  cases n with
  | zero => cases h; rfl
  | succ n =>
    rw [runFor_succ (step_stepped (by decide +kernel)),
      runFor_ended (by decide +kernel) (by decide +kernel)] at h
    rw [← Option.some.inj h]
    decide +kernel
/-- The next word of a run is a TX. -/
theorem witness_next_word_tx : (loaded [0x0000FF04] State.reset).program[(loaded [0x0000FF04] State.reset).pc]? =
    some 0x0000FF04 ∧ decode 0x0000FF04 = .command (.tx 0xFF) := by decide
/-- A number as text, and a comment after it. -/
theorem witness_text : decimal 90 = ['9', '0'] ∧ hexadecimal 90 = ['0', 'x', '5', 'A'] ∧
    ([';', ' ', 'x'] : List Char).head? = some ';' := by decide
/-- A command after a WRITE, for the settle statement. -/
theorem witness_next_command : exec .start (after (.write 1 90) (entry true true [false, false, false])) =
    .next (after .start (after (.write 1 90) (entry true true [false, false, false]))) := rfl
theorem witness_clock_low : Live (entry false true []) ∧ (entry false true []).scl = false ∧
    (entry false true []).sda = true := by decide
/-- The next WRITE after an aborted one: acknowledged, and refused at its first and at its last byte. -/
theorem witness_spoiled_acked :
    DeviceAcks (after (.write 1 90) (entry true true [true, false, false, false])) 2 3 := by decide
theorem witness_spoiled_nacked_1 :
    DeviceNacksAt (after (.write 1 90) (entry true true [true, true])) 2 3 1 := by decide
theorem witness_spoiled_nacked_3 :
    DeviceNacksAt (after (.write 1 90) (entry true true [true, false, false, true])) 2 3 3 := by decide
theorem witness_replayed_line :
    (entry true true [false, true, false, true, false, false, true, false, true]).params.script.drop
      (sampleCount (entry true true []).trace) =
    false :: ([7, 6, 5, 4, 3, 2, 1, 0].map fun k => (0xA5 : Byte).getLsbD k) ++ [] := by decide

/-- The first instruction after reset, placed by `withFetchWord`, is executed by the next step, whatever the
environment answers. -/
theorem test_first_instruction :
    (nextOf (step (State.reset.withFetchWord 32 0x005A0108))).isSome = true ∧
    (nextOf (step (State.reset.withFetchWord 32 0x0000A504))).isSome = true ∧
    (nextOf (step (State.reset.withFetchWord 32 0x00000005))).isSome = true := by decide

end Sys2Proof.Tests
end

section
/-! PROOFS. What each command writes (R30) and what it does to the freshness of the flag (R21). -/

namespace Sys2Proof.Machine

/-- WRITE has two kinds of end: acknowledged throughout (R76), or refused at one of its bytes (R77). -/
theorem execNext_write_cases (i v : Byte) (s : State) :
    execNext (.write i v) s =
      respond (.flag true) (settle (expireAck (setAck false (perform (writeDoneActs s.params i v) s)))) ∨
    ∃ k, execNext (.write i v) s =
      respond (.flag false) (setAck true (perform (writeAbortActs s.params i v k) s)) := by
  rcases acks_or_nacks i v s with h | ⟨k, h⟩
  · exact .inl (execNext_write_acked i v s h)
  · exact .inr ⟨k, execNext_write_nacked i v s h⟩

/-! ## What no command writes -/

/-- No command writes the parameters (R25) or the host's program. -/
theorem execNext_frame (i : Instr) (s : State) :
    (execNext i s).params = s.params ∧ (execNext i s).program = s.program := by
  cases i with
  | readack => rcases readackNext_cases s with ⟨b, -, -, e⟩ | ⟨c, -, e⟩ <;> simp [execNext, e]
  | write x v => rcases execNext_write_cases x v s with e | ⟨k, e⟩ <;> simp [e]
  | _ => exact ⟨rfl, rfl⟩

@[simp] theorem execNext_params (i : Instr) (s : State) : (execNext i s).params = s.params := (execNext_frame i s).1

@[simp] theorem execNext_program (i : Instr) (s : State) : (execNext i s).program = s.program := (execNext_frame i s).2

/-- Only READACK can take a fault (R83). -/
theorem execNext_fault {i : Instr} (hi : i ≠ .readack) (s : State) : (execNext i s).fault = s.fault := by
  cases i with
  | readack => exact absurd rfl hi
  | write x v => rcases execNext_write_cases x v s with e | ⟨k, e⟩ <;> simp [e]
  | _ => rfl

/-- A command that ends with a fault has written nothing but the record (R85). -/
theorem execNext_eq_of_fault {i : Instr} {s : State} (hs : s.fault = none) (hf : (execNext i s).fault ≠ none) :
    execNext i s = { s with fault := (execNext i s).fault } := by
  by_cases hi : i = .readack
  · subst hi
    rcases readackNext_cases s with ⟨b, -, -, e⟩ | ⟨c, -, e⟩
    · exact absurd (by simpa [execNext, e] using hs) hf
    · simp only [execNext, e]; rfl
  · exact absurd ((execNext_fault hi s).trans hs) hf

/-- What issuing a word can do: execute the command it decodes to, or record the fault of a rejected word. -/
theorem issue_next_cases {w : Word32} {s t : State} (h : issue w s = .next t) :
    s.fault = none ∧
      ((∃ i, decode w = .command i ∧ t = execNext i s) ∨ ∃ c, decode w = .reject c ∧ t = raise c w s) := by
  unfold issue at h
  split at h
  · next i hd => exact ⟨(exec_next_iff.1 h).1, .inl ⟨i, hd, (exec_next_iff.1 h).2⟩⟩
  · next c hd => exact ⟨(whenLive_next h).1, .inr ⟨c, hd, (whenLive_next h).2⟩⟩

/-- A word that ends with a fault has written nothing but the record (R85). -/
theorem issue_eq_of_fault {w : Word32} {s t : State} (h : issue w s = .next t) (hf : t.fault ≠ none) :
    t = { s with fault := t.fault } := by
  obtain ⟨hs, ⟨i, -, rfl⟩ | ⟨c, -, rfl⟩⟩ := issue_next_cases h
  · exact execNext_eq_of_fault hs hf
  · rfl

/-- A READACK that takes no fault hands over the flag and writes nothing of the engine (R74). -/
theorem readackNext_completes {s : State} (h : (readackNext s).fault = none) :
    ∃ b, readackNext s = respond (.flag b) s := by
  rcases readackNext_cases s with ⟨b, -, -, e⟩ | ⟨c, -, e⟩
  · exact ⟨b, e⟩
  · simp [e] at h

/-- WRITE ends with DATA released, and its flag and freshness follow CLOCK: high after its STOP (ACK, stale), low
where it stopped after a TX (NACK, fresh). -/
theorem execNext_write_row (x v : Byte) (s : State) :
    (execNext (.write x v) s).sda = true ∧
      (execNext (.write x v) s).ack = some (execNext (.write x v) s).scl ∧
      (execNext (.write x v) s).ackFresh = !(execNext (.write x v) s).scl := by
  rcases execNext_write_cases x v s with e | ⟨k, e⟩ <;> simp [e, ackOf]

/-- Settles O35: the rows of R30, from the one next state each command has. -/
theorem tableOfWrittenState : Obligations.TableOfWrittenState := by
  refine ⟨fun w s t h hf => issue_eq_of_fault h hf, fun i s t h => ?_⟩
  obtain ⟨hs, rfl⟩ := exec_next_iff.1 h
  refine ⟨execNext_params i s, execNext_program i s, execNext_eq_of_fault hs, fun hf => ?_⟩
  cases i with
  | readack =>
    obtain ⟨b, e⟩ := readackNext_completes hf
    simp [execNext, e]
  | write x v => exact execNext_write_row x v s
  | sendack a => simp [execNext, ackLevel]
  | tx v => simp [execNext, ackOf]
  | delay | start | stop | rx => simp [execNext]

/-! ## The freshness of the flag -/

/-- The START that opens a WRITE makes the flag stale whatever it was. -/
theorem writeAddr_ackFresh (f : Bool) (s : State) : writeAddr { s with ackFresh := f } = writeAddr s :=
  congrArg (txSeq s.params.devAddr) (show startSeq { s with ackFresh := f } = startSeq s from rfl)

/-- WRITE meets the state only through its START and first byte, so it does not see the freshness. -/
theorem writeSeq_ackFresh (x v : Byte) (f : Bool) (s : State) :
    writeSeq x v { s with ackFresh := f } = writeSeq x v s := by
  unfold writeSeq writeValue writeIndex
  rw [writeAddr_ackFresh f s]

/-- No sample of RX depends on the freshness of the flag. -/
theorem rxAnswers_ackFresh (f : Bool) (s : State) (k : Nat) (bs : List Bit) :
    rxAnswers { s with ackFresh := f } k bs = rxAnswers s k bs := by
  induction k generalizing bs with
  | zero => rfl
  | succ k ih => exact ih _

/-- A command other than READACK and DELAY overwrites the freshness and does not look at it (R21). -/
theorem execNext_ackFresh {i : Instr} (hr : i ≠ .readack) (hd : i ≠ .delay) (f : Bool) (s : State) :
    execNext i { s with ackFresh := f } = execNext i s := by
  cases i with
  | readack => exact absurd rfl hr
  | delay => exact absurd rfl hd
  | rx => simp only [execNext, rxRead, rxAnswers_ackFresh]; rfl
  | write x v => simp only [execNext, writeSeq_ackFresh]
  | _ => rfl

/-- START, STOP, RX and SENDACK make the flag stale and keep its value. -/
theorem execNext_expires {i : Instr} (h : i = .start ∨ i = .stop ∨ i = .rx ∨ ∃ a, i = .sendack a) (s : State) :
    (execNext i s).ackFresh = false ∧ (execNext i s).ack = s.ack := by
  obtain rfl | rfl | rfl | ⟨a, rfl⟩ := h <;> exact ⟨rfl, rfl⟩

/-- DELAY and READACK leave the flag and its freshness. -/
theorem execNext_keeps_flag {i : Instr} (h : i = .delay ∨ i = .readack) (s : State) :
    (execNext i s).ackFresh = s.ackFresh ∧ (execNext i s).ack = s.ack := by
  obtain rfl | rfl := h
  · exact ⟨rfl, rfl⟩
  · rcases readackNext_cases s with ⟨b, -, -, e⟩ | ⟨c, -, e⟩ <;> simp [execNext, e]

/-- WRITE's response and the freshness it leaves: stale after a success, fresh after a failure. -/
theorem execNext_write_resp (x v : Byte) (s : State) :
    (execNext (.write x v) s).resp = s.resp ++ [.flag (!(execNext (.write x v) s).ackFresh)] := by
  rcases execNext_write_cases x v s with e | ⟨k, e⟩ <;> simp [e]

/-- Settles O36, command by command. -/
theorem freshnessOfTheFlag : Obligations.FreshnessOfTheFlag := by
  refine ⟨fun v s t h => ?_, fun i s t hi h => ?_, fun i s t hi h => ?_, fun x v s t h => ?_,
    fun i s t f hi h => ?_, rfl⟩ <;> obtain ⟨hs, rfl⟩ := exec_next_iff.1 h
  · rfl
  · exact execNext_expires hi s
  · exact execNext_keeps_flag hi s
  · rw [execNext_write_resp x v s]
    simp
  · refine exec_next_iff.2 ⟨hs, ?_⟩
    by_cases hd : i = .delay
    · subst hd; rfl
    · rw [execNext_ackFresh hi hd f s, if_neg hd]

end Sys2Proof.Machine
end

section
/-! PROOFS. The primitives DRIVE, WAIT and HALF (R33, R37, R58). -/

namespace Sys2Proof.Machine

/-- Settles O13. Each primitive is one record update: DRIVE branches on the line and never on its level, so one
equation per line covers a drive to the level the line already has; HALF is the WAIT that `half_eq_wait` names. -/
theorem driveAndWaitPrimitives : Obligations.DriveAndWaitPrimitives := by
  refine ⟨fun v s => ?clock, fun v s => ?data, fun n s => ?wait, half_eq_wait⟩
  case clock => rfl
  case data => rfl
  case wait => rfl

end Sys2Proof.Machine
end

section
/-! PROOFS. The command format (R49 to R54): the fields of a word, what the decoder answers for them, and the rows of
the opcode map. -/

namespace Sys2Proof

/-! ## The fields of a word -/

/-- A word is the packed word of three fields exactly when those are its fields and its reserved fields are zero. -/
theorem eq_packWord_iff {w : Word32} {op : BitVec 4} {a b : Byte} :
    w = packWord op a b ↔
      fieldOp w = op ∧ fieldZ0 w = 0 ∧ fieldZ1 w = 0 ∧ fieldA w = a ∧ fieldB w = b := by
  constructor
  · rintro rfl
    exact ⟨fieldOp_packWord op a b, fieldZ0_packWord op a b, fieldZ1_packWord op a b, fieldA_packWord op a b,
      fieldB_packWord op a b⟩
  · rintro ⟨rfl, h0, h1, rfl, rfl⟩
    exact (packWord_fields w h0 h1).symm

@[simp] theorem fieldOp_and (w m : Word32) : fieldOp (w &&& m) = fieldOp w &&& fieldOp m := BitVec.extractLsb'_and
@[simp] theorem fieldZ0_and (w m : Word32) : fieldZ0 (w &&& m) = fieldZ0 w &&& fieldZ0 m := BitVec.extractLsb'_and
@[simp] theorem fieldA_and (w m : Word32) : fieldA (w &&& m) = fieldA w &&& fieldA m := BitVec.extractLsb'_and
@[simp] theorem fieldB_and (w m : Word32) : fieldB (w &&& m) = fieldB w &&& fieldB m := BitVec.extractLsb'_and
@[simp] theorem fieldZ1_and (w m : Word32) : fieldZ1 (w &&& m) = fieldZ1 w &&& fieldZ1 m := BitVec.extractLsb'_and

/-! ## The opcode map -/

/-- No command has the opcode 0x0 or one of 0x9 to 0xF (R53). -/
theorem commandOf_eq_none_iff {op : BitVec 4} {a b : Byte} :
    commandOf op a b = none ↔ op.toNat = 0 ∨ 9 ≤ op.toNat := by
  unfold commandOf
  split
  case h_9 => grind
  all_goals simp [*]

/-- An opcode selects a command when it is the command's own and the operands are those the command uses. -/
theorem commandOf_eq_some_iff {op : BitVec 4} {a b : Byte} {i : Instr} :
    commandOf op a b = some i ↔
      op = i.opcode ∧ (i.usesA = true → a = i.operandA) ∧ (i.usesB = true → b = i.operandB) := by
  constructor
  · intro h
    unfold commandOf at h
    split at h <;> cases h <;>
      exact ⟨BitVec.eq_of_toNat_eq ‹_›, by simp [Instr.usesA, Instr.operandA], by simp [Instr.usesB, Instr.operandB]⟩
  · rintro ⟨rfl, ha, hb⟩
    cases i with
    | tx v | sendack v => rw [ha rfl]; rfl
    | write x v => rw [ha rfl, hb rfl]; rfl
    | _ => rfl

/-- The illegal opcodes, listed. -/
theorem mem_illegal_opcodes (op : BitVec 4) :
    op.toNat ∈ [0x0, 0x9, 0xA, 0xB, 0xC, 0xD, 0xE, 0xF] ↔ op.toNat = 0 ∨ 9 ≤ op.toNat := by
  revert op
  decide

/-- The legal opcodes, listed. -/
theorem mem_legal_opcodes (op : BitVec 4) :
    op.toNat ∈ [0x1, 0x2, 0x3, 0x4, 0x5, 0x6, 0x7, 0x8] ↔ op.toNat ≠ 0 ∧ op.toNat < 9 := by
  revert op
  decide

/-- The opcodes of the commands that do not use field A. -/
theorem usesA_eq_false_iff (i : Instr) : i.usesA = false ↔ i.opcode.toNat ∈ [0x1, 0x2, 0x3, 0x5, 0x7] := by
  cases i <;> simp [Instr.usesA, Instr.opcode]

/-- WRITE alone uses field B. -/
theorem usesB_eq_false_iff (i : Instr) : i.usesB = false ↔ i.opcode.toNat ≠ 0x8 := by
  cases i <;> simp [Instr.usesB, Instr.opcode]

/-! ## What the decoder answers -/

/-- A field that is nonzero although R53 wants it zero in a word of command `i`. -/
def ReservedNonzero (i : Instr) (w : Word32) : Prop :=
  fieldZ0 w ≠ 0 ∨ fieldZ1 w ≠ 0 ∨ (i.usesA = false ∧ fieldA w ≠ 0) ∨ (i.usesB = false ∧ fieldB w ≠ 0)

/-- What the decoder can answer (R54): an illegal opcode; or, for the command the opcode selects, a reserved field
when one is nonzero, and the command when none is. -/
theorem decode_cases (w : Word32) :
    (commandOf (fieldOp w) (fieldA w) (fieldB w) = none ∧ decode w = .reject .illegalOpcode) ∨
    ∃ i, commandOf (fieldOp w) (fieldA w) (fieldB w) = some i ∧
      ((ReservedNonzero i w ∧ decode w = .reject .reservedField) ∨
       (¬ ReservedNonzero i w ∧ decode w = .command i)) := by
  unfold decode
  split
  · exact .inl ⟨‹_›, rfl⟩
  · next i hi =>
    refine .inr ⟨i, hi, ?_⟩
    split_ifs with hz ha hb
    · exact .inl ⟨hz.imp_right .inl, rfl⟩
    · exact .inl ⟨.inr (.inr (.inl ha)), rfl⟩
    · exact .inl ⟨.inr (.inr (.inr hb)), rfl⟩
    · exact .inr ⟨by unfold ReservedNonzero; tauto, rfl⟩

/-- A word is illegal by its opcode alone (R53). -/
theorem decode_eq_illegal_iff {w : Word32} :
    decode w = .reject .illegalOpcode ↔ (fieldOp w).toNat = 0 ∨ 9 ≤ (fieldOp w).toNat := by
  rw [← commandOf_eq_none_iff (a := fieldA w) (b := fieldB w)]
  rcases decode_cases w with ⟨hc, hd⟩ | ⟨i, hc, ⟨-, hd⟩ | ⟨-, hd⟩⟩ <;> simp [hc, hd]

/-- A word is reserved when its opcode selects a command and a field that R53 wants zero is not. -/
theorem decode_eq_reserved_iff {w : Word32} :
    decode w = .reject .reservedField ↔
      ∃ i, commandOf (fieldOp w) (fieldA w) (fieldB w) = some i ∧ ReservedNonzero i w := by
  rcases decode_cases w with ⟨hc, hd⟩ | ⟨i, hc, ⟨hr, hd⟩ | ⟨hr, hd⟩⟩
  · simp [hc, hd]
  all_goals simp [hc, hd, hr]

/-- A word decodes to a command when its opcode selects it and no field that R53 wants zero is nonzero. -/
theorem decode_eq_command_iff {w : Word32} {i : Instr} :
    decode w = .command i ↔
      commandOf (fieldOp w) (fieldA w) (fieldB w) = some i ∧ ¬ ReservedNonzero i w := by
  rcases decode_cases w with ⟨hc, hd⟩ | ⟨j, hc, ⟨hr, hd⟩ | ⟨hr, hd⟩⟩
  · simp [hc, hd]
  · exact iff_of_false (by simp [hd]) fun ⟨hi, hn⟩ => hn (Option.some.inj (hc.symm.trans hi) ▸ hr)
  · simp only [hc, hd, Decoded.command.injEq, Option.some.injEq]
    exact iff_self_and.2 fun h => h ▸ hr

/-- The reserved words by their fields (R53): a legal opcode, and Z0, Z1, an A its command does not use or a B its
command does not use nonzero. -/
theorem decode_eq_reserved_iff_fields {w : Word32} :
    decode w = .reject .reservedField ↔
      ((fieldOp w).toNat ≠ 0 ∧ (fieldOp w).toNat < 9) ∧
      (fieldZ0 w ≠ 0 ∨ fieldZ1 w ≠ 0 ∨
        (fieldA w ≠ 0 ∧ (fieldOp w).toNat ∈ [0x1, 0x2, 0x3, 0x5, 0x7]) ∨
        (fieldB w ≠ 0 ∧ (fieldOp w).toNat ≠ 0x8)) := by
  have hlegal := commandOf_eq_none_iff (op := fieldOp w) (a := fieldA w) (b := fieldB w)
  rw [decode_eq_reserved_iff, ← not_le, ← not_or, ← hlegal]
  cases hc : commandOf (fieldOp w) (fieldA w) (fieldB w) with
  | none => simp
  | some i =>
    have hop : fieldOp w = i.opcode := (commandOf_eq_some_iff.1 hc).1
    simp [ReservedNonzero, usesA_eq_false_iff, usesB_eq_false_iff, hop, and_comm]

/-! ## The rows of the opcode map -/

/-- The mask of a row of the opcode map (R51): OP and the reserved fields, and each operand field the row's command
does not use. -/
def rowMask (usesA usesB : Bool) : Word32 :=
  0xFF0000FF ||| (if usesA then 0 else 0x0000FF00) ||| (if usesB then 0 else 0x00FF0000)

section
variable (a b : Bool)

theorem fieldOp_rowMask : fieldOp (rowMask a b) = BitVec.allOnes 4 := by revert a b; decide
theorem fieldZ0_rowMask : fieldZ0 (rowMask a b) = BitVec.allOnes 4 := by revert a b; decide
theorem fieldZ1_rowMask : fieldZ1 (rowMask a b) = BitVec.allOnes 8 := by revert a b; decide
theorem fieldA_rowMask : fieldA (rowMask a b) = if a then 0 else BitVec.allOnes 8 := by revert a b; decide
theorem fieldB_rowMask : fieldB (rowMask a b) = if b then 0 else BitVec.allOnes 8 := by revert a b; decide

end

/-- The mask of an operand field leaves zero exactly when the field is zero or the command uses it. -/
theorem and_operandMask_eq_zero_iff (x : Byte) (used : Bool) :
    x &&& (if used then 0 else BitVec.allOnes 8) = 0 ↔ ¬ (used = false ∧ x ≠ 0) := by
  cases used <;> simp [-BitVec.reduceAllOnes]

/-- A word meets the mask and match of a command's row when its opcode is the command's and no field that R53 wants
zero is nonzero. -/
theorem and_rowMask_eq_iff {w : Word32} {i : Instr} :
    w &&& rowMask i.usesA i.usesB = packWord i.opcode 0 0 ↔ fieldOp w = i.opcode ∧ ¬ ReservedNonzero i w := by
  simp only [eq_packWord_iff, fieldOp_and, fieldZ0_and, fieldZ1_and, fieldA_and, fieldB_and, fieldOp_rowMask,
    fieldZ0_rowMask, fieldZ1_rowMask, fieldA_rowMask, fieldB_rowMask, BitVec.and_allOnes, and_operandMask_eq_zero_iff,
    ReservedNonzero, not_or, ne_eq, not_not, -BitVec.reduceAllOnes]

/-- The opcode map (R51): a word decodes to a command exactly when it meets the mask and match of the command's row
and carries the operands the command uses. -/
theorem decode_eq_command_iff_row {w : Word32} {i : Instr} :
    decode w = .command i ↔
      w &&& rowMask i.usesA i.usesB = packWord i.opcode 0 0 ∧
        (i.usesA = true → i.operandA = fieldA w) ∧ (i.usesB = true → i.operandB = fieldB w) := by
  rw [decode_eq_command_iff, commandOf_eq_some_iff, and_rowMask_eq_iff]
  tauto

section
variable {w : Word32} {i : Instr} {op : BitVec 4} (ho : i.opcode = op)
include ho

/-- The row of a command without operands. -/
theorem decode_eq_command_iff_row_none (ha : i.usesA = false) (hb : i.usesB = false) :
    decode w = .command i ↔ w &&& rowMask false false = packWord op 0 0 := by
  simp [decode_eq_command_iff_row, ho, ha, hb]

/-- The row of a command with operand A. -/
theorem decode_eq_command_iff_row_A (ha : i.usesA = true) (hb : i.usesB = false) :
    decode w = .command i ↔ w &&& rowMask true false = packWord op 0 0 ∧ i.operandA = fieldA w := by
  simp [decode_eq_command_iff_row, ho, ha, hb]

/-- The row of a command with operands A and B. -/
theorem decode_eq_command_iff_row_AB (ha : i.usesA = true) (hb : i.usesB = true) :
    decode w = .command i ↔
      w &&& rowMask true true = packWord op 0 0 ∧ i.operandA = fieldA w ∧ i.operandB = fieldB w := by
  simp [decode_eq_command_iff_row, ho, ha, hb]

end

/-- The low four bits of a word, as a number, are its opcode. -/
theorem toNat_and_fifteen (w : Word32) : (w &&& 0xF).toNat = (fieldOp w).toNat := by
  simp [fieldOp, Nat.and_two_pow_sub_one_eq_mod w.toNat 4]

/-- Settles O4: the rows of `decode_eq_command_iff_row`, command by command. -/
theorem opcodeMapSelectsByMaskAndMatch : Obligations.OpcodeMapSelectsByMaskAndMatch := by
  intro w
  refine ⟨?delay, ?start, ?stop, fun v => ?tx, ?rx, fun a => ?sendack, ?readack, fun x v => ?write, fun h => ?illegal⟩
  case delay | start | stop | rx | readack => exact decode_eq_command_iff_row_none rfl rfl rfl
  case tx => exact decode_eq_command_iff_row_A (op := 4) rfl rfl rfl
  case sendack => exact decode_eq_command_iff_row_A (op := 6) rfl rfl rfl
  case write => exact decode_eq_command_iff_row_AB (op := 8) rfl rfl rfl
  case illegal =>
    rw [decode_eq_illegal_iff, ← toNat_and_fifteen]
    exact h.imp_left (congrArg BitVec.toNat)

end Sys2Proof
end

section
/-! PROOFS. Which words are rejected, and that no word is a no-op (R53). -/

namespace Sys2Proof.Machine

/-- Every command leaves a mark: it adds events to the trace, or, READACK, it hands over the flag or takes a
fault. -/
theorem execNext_leaves_a_mark (i : Instr) (s : State) :
    (execNext i s).fault ≠ none ∨ s.trace.length < (execNext i s).trace.length ∨
      ∃ b, (execNext i s).resp = s.resp ++ [.flag b] := by
  cases i with
  | readack =>
    rcases readackNext_cases s with ⟨b, -, -, e⟩ | ⟨c, -, e⟩
    · exact .inr (.inr ⟨b, by simp [execNext, e]⟩)
    · exact .inl (by simp [execNext, e])
  | write x v => exact .inr (.inr ⟨_, execNext_write_resp x v s⟩)
  | _ => exact .inr (.inl (by simp [execNext]))

/-- Settles O3: the two rejected classes by their fields, and the mark each kind of next state leaves. -/
theorem illegalAndReservedWords : Obligations.IllegalAndReservedWords := by
  refine ⟨fun w => ?illegal, fun w => ?reserved, fun w hi hr => ?command, fun w c s hs hd => ?raised,
    fun w s t h => ?marked, rfl, rfl⟩
  case illegal =>
    exact decode_eq_illegal_iff.trans (mem_illegal_opcodes (fieldOp w)).symm
  case reserved =>
    exact decode_eq_reserved_iff_fields.trans (and_congr_left' (mem_legal_opcodes (fieldOp w)).symm)
  case command =>
    obtain ⟨-, hd⟩ | ⟨i, -, ⟨-, hd⟩ | ⟨-, hd⟩⟩ := decode_cases w
    · exact absurd hd hi
    · exact absurd hd hr
    · exact ⟨i, hd⟩
  case raised =>
    simp only [issue, hd, whenLive_live _ hs, raise]
  case marked =>
    obtain ⟨-, ⟨i, -, rfl⟩ | ⟨c, -, rfl⟩⟩ := issue_next_cases h
    · exact execNext_leaves_a_mark i s
    · exact .inl (by simp)

end Sys2Proof.Machine
end

section
/-! PROOFS. The pseudo-commands of the assembler (R57). -/

namespace Sys2Proof.Machine

/-- A statement that is no pseudo-command and is accepted is the spelling of the one command it stands for: its
operands are in range, so the bytes they become spell them again. -/
theorem source_of_expand {src : Source} {is : List Instr} (h : expand src = some is) (ha : src.op ≠ .ack)
    (hn : src.op ≠ .nack) (hw : src.op ≠ .wait) : ∃ i, is = [i] ∧ i.source = src := by
  obtain ⟨op, ns⟩ := src
  unfold expand at h
  split at h
  case isFalse => cases h
  case isTrue hwf =>
    have hrange : ∀ n ∈ ns, n < 256 := by
      simp only [Source.wellFormed, AsmOp.operandInRange, Bool.and_eq_true, List.all_eq_true] at hwf
      simpa [hw] using hwf.2
    split at h <;> cases h
    case h_9 | h_10 | h_11 => contradiction
    all_goals exact ⟨_, rfl, by simp_all [Instr.source, Nat.mod_eq_of_lt]⟩

/-- `WAIT n` is well-formed for every `n`, and stands for `n` DELAYs (R57). -/
theorem expand_wait (n : Nat) : expand ⟨.wait, [n]⟩ = some (List.replicate n .delay) := rfl

theorem assemble_wait (n : Nat) : assemble ⟨.wait, [n]⟩ = some (List.replicate n 0x00000001) := by
  rw [assemble, expand_wait, Option.map_some, List.map_replicate]
  rfl

/-- Settles O8: closed statements for ACK and NACK, the count of WAIT, and the spelling a command's statement is. -/
theorem pseudoCommandsExpand : Obligations.PseudoCommandsExpand :=
  ⟨rfl, rfl, rfl, rfl, fun n => ⟨expand_wait n, assemble_wait n⟩, assemble_wait 0,
    fun _ _ h ha hn hw => source_of_expand h ha hn hw⟩

end Sys2Proof.Machine
end

section
/-! PROOFS. The delay discipline of the bus calls (R59). -/

namespace Sys2Proof.Machine

/-- A bus call (START, STOP, TX, RX or SENDACK) records its own waveform under the delay discipline, and nothing
before or after it: neither the flag it then writes nor its response is an event (R59). -/
theorem execNext_trace_paced {i : Instr}
    (h : i = .start ∨ i = .stop ∨ (∃ v, i = .tx v) ∨ i = .rx ∨ ∃ a, i = .sendack a) (s : State) :
    ∃ acts, (execNext i s).trace = s.trace ++ pacedFrom s acts := by
  obtain rfl | rfl | ⟨v, rfl⟩ | rfl | ⟨a, rfl⟩ := h
  · exact ⟨startActs, rfl⟩
  · exact ⟨stopActs, rfl⟩
  · exact ⟨txActs v (answerAfter s (txLeadActs v)), rfl⟩
  · exact ⟨rxActs (rxRead s), rfl⟩
  · exact ⟨sendackActs a, rfl⟩

/-- Settles O38: a live engine completes the call, and the events it appends are its paced waveform. -/
theorem delayFollowsEveryLineEvent : Obligations.DelayFollowsEveryLineEvent := by
  intro i s hs hi
  obtain ⟨acts, htrace⟩ := execNext_trace_paced hi s
  exact ⟨execNext i s, acts, exec_live i hs, htrace⟩

end Sys2Proof.Machine
end

section
/-! PROOFS. The bus calls of 41_bus_protocol: how many events of each kind TX records (R71), and that no command looks
at the line levels it starts from (R65). -/

namespace Sys2Proof.Machine

/-! ## Counting the events of a waveform -/

/-- A kind of line event: no wait is of that kind, and the time of an event does not decide it. -/
structure LineKind (kind : Event → Bool) : Prop where
  not_wait : ∀ n t, kind (.wait n t) = false
  timeless : ∀ t a, kind (eventAt t a) = kind (eventAt 0 a)

theorem lineKind_isDriveTo (line : Line) (v : Bit) : LineKind (isDriveTo line v) :=
  ⟨fun _ _ => rfl, fun _ a => by cases a <;> rfl⟩

theorem lineKind_isDriveOn (line : Line) : LineKind (isDriveOn line) :=
  ⟨fun _ _ => rfl, fun _ a => by cases a <;> rfl⟩

theorem lineKind_isSample : LineKind isSample :=
  ⟨fun _ _ => rfl, fun _ a => by cases a <;> rfl⟩

/-- A kind of line event is counted in a paced waveform as among its acts. -/
theorem LineKind.countP_paced {kind : Event → Bool} (hk : LineKind kind) (h t : Nat) (acts : List Act) :
    (paced h t acts).countP kind = acts.countP fun a => kind (eventAt 0 a) := by
  induction acts generalizing t with
  | nil => rfl
  | cons a acts ih =>
    simp only [paced, List.countP_cons, ih, hk.not_wait, hk.timeless t a, Bool.false_eq_true, if_false, Nat.add_zero]

/-- TX's acts of a kind that every data bit has `n` times: eight data bits, then the acknowledge pulse (R69). -/
theorem countP_txActs {kind : Act → Bool} {n : Nat} (hbit : ∀ b, (txBitActs b).countP kind = n) (v : Byte) (b : Bit) :
    (txActs v b).countP kind =
      8 * n + [.drive .data true, .drive .clock true, .sample b, .drive .clock false].countP kind := by
  have hbits : (bitsMsb v).map (List.countP kind ∘ txBitActs) = List.replicate 8 n :=
    List.eq_replicate_iff.2 ⟨rfl, by simp [hbit]⟩
  rw [txActs, txLeadActs, List.append_assoc, List.countP_append, List.countP_flatMap, hbits, List.sum_replicate_nat]
  rfl

/-- The events of a kind that TX records, `n` for each data bit and the rest in its acknowledge pulse. -/
theorem LineKind.countP_tx {kind : Event → Bool} (hk : LineKind kind) {n : Nat}
    (hbit : ∀ b, (txBitActs b).countP (fun a => kind (eventAt 0 a)) = n) (s : State) (v : Byte) (b : Bit) :
    (pacedFrom s (txActs v b)).countP kind =
      8 * n + [.drive .data true, .drive .clock true, .sample b, .drive .clock false].countP
        fun a => kind (eventAt 0 a) :=
  (hk.countP_paced _ _ _).trans (countP_txActs hbit v b)

/-- A paced waveform holds one half period for each act (R59). -/
theorem countP_isWaitOf_paced (h t : Nat) (acts : List Act) :
    (paced h t acts).countP (isWaitOf h) = acts.length := by
  induction acts generalizing t with
  | nil => rfl
  | cons a acts ih => cases a <;> simp [paced, eventAt, isWaitOf, ih]

/-- Settles O19: TX's events are its paced waveform. Each data bit has one CLOCK pulse and one drive of DATA, whatever
its value; the acknowledge pulse has one more of each, and the one sample. -/
theorem txEventCounts : Obligations.TxEventCounts := by
  intro v s hs
  refine ⟨execNext (.tx v) s, pacedFrom s (txActs v (answerAfter s (txLeadActs v))), exec_live _ hs, rfl,
    by rw [length_pacedFrom, length_txActs], ?clockHigh, ?clockLow, ?data, ?sample, ?halves⟩
  case clockHigh => exact (lineKind_isDriveTo .clock true).countP_tx (n := 1) (fun _ => rfl) s v _
  case clockLow => exact (lineKind_isDriveTo .clock false).countP_tx (n := 1) (fun _ => rfl) s v _
  case data => exact (lineKind_isDriveOn .data).countP_tx (n := 1) (fun _ => rfl) s v _
  case sample => exact lineKind_isSample.countP_tx (n := 0) (fun _ => rfl) s v _
  case halves => exact (countP_isWaitOf_paced _ _ _).trans (length_txActs v _)

/-! ## The line levels at entry -/

section
variable (c d : Bit) (s : State)

theorem answerAfter_lines (acts : List Act) :
    answerAfter { s with scl := c, sda := d } acts = answerAfter s acts := rfl

theorem readFlag_lines : readFlag { s with scl := c, sda := d } = readFlag s := rfl

/-- No sample of RX depends on the levels the engine drove before it. -/
theorem rxAnswers_lines (k : Nat) (bs : List Bit) :
    rxAnswers { s with scl := c, sda := d } k bs = rxAnswers s k bs := by
  induction k generalizing bs with
  | zero => rfl
  | succ k ih => rw [rxAnswers, answerAfter_lines, ih, rxAnswers]

/-- From other line levels a WRITE reaches the same next state, up to the line levels: its acknowledge answers, and so
its path, are the same. -/
theorem execNext_write_lines (x v : Byte) :
    ∃ c' d', execNext (.write x v) { s with scl := c, sda := d } =
      { execNext (.write x v) s with scl := c', sda := d' } := by
  rcases acks_or_nacks x v s with h | ⟨k, h⟩
  · have h' : DeviceAcks { s with scl := c, sda := d } x v := h
    rw [execNext_write_acked x v s h, execNext_write_acked x v _ h']
    dsimp only
    generalize writeDoneActs s.params x v = acts
    exact ⟨_, _, rfl⟩
  · have h' : DeviceNacksAt { s with scl := c, sda := d } x v k := h
    rw [execNext_write_nacked x v s h, execNext_write_nacked x v _ h']
    exact ⟨_, _, rfl⟩

/-- From other line levels a command reaches the same next state, up to the line levels (R65). -/
theorem execNext_lines (i : Instr) :
    ∃ c' d', execNext i { s with scl := c, sda := d } = { execNext i s with scl := c', sda := d' } := by
  cases i with
  | rx =>
    simp only [execNext, rxRead, rxAnswers_lines]
    generalize rxAnswers s 8 [] = bits
    exact ⟨_, _, rfl⟩
  | readack =>
    refine ⟨c, d, ?_⟩
    simp only [execNext, readackNext, readFlag_lines]
    cases readFlag s <;> rfl
  | write x v => exact execNext_write_lines c d s x v
  | delay | start | stop | tx | sendack => exact ⟨_, _, rfl⟩

end

/-- Settles O40: every field the statement names is one that the two next states share. -/
theorem entryLevelsDoNotMatter : Obligations.EntryLevelsDoNotMatter := by
  intro i s t c d h
  obtain ⟨hs, rfl⟩ := exec_next_iff.1 h
  obtain ⟨c', d', e⟩ := execNext_lines c d s i
  refine ⟨execNext i { s with scl := c, sda := d }, exec_live i hs, ?_⟩
  rw [e]
  exact ⟨rfl, rfl, rfl, rfl, rfl, rfl, rfl⟩

end Sys2Proof.Machine
end

section
/-! PROOFS. What the bus monitor reads of a WRITE (R76, R77), and what a WRITE that was refused does to the START after
it (R78). -/

namespace Sys2Proof.Machine

/-! ## The monitor on the waveform of a WRITE -/

/-- The condition that the drives of a START make from the line levels `c` and `d`: one from an idle bus, else none
(R67). -/
def startTokens (c d : Bit) : List Token := if c = true ∧ d = true then [.start] else []

/-- START from any line levels leaves both lines low and no slot open. -/
theorem foldl_startActs (c d : Bit) :
    startActs.foldl monitorAct (monitorInit c d) = lowState false [] (startTokens c d) := by
  cases c <;> cases d <;> rfl

/-- A byte and its acknowledge bit, sent from CLOCK low, are one frame; DATA stays released. -/
theorem foldl_txActs (v : Byte) (b d : Bit) (out : List Token) :
    (txActs v b).foldl monitorAct (lowState d [] out) = lowState true [] (out ++ [.byte v b]) := by
  have hlen : (bitsMsb v).length = 8 := rfl
  rw [txActs, txLeadActs, List.foldl_append, List.foldl_append, foldl_bitsMsb]
  simp [monitorAct, monitorData, monitorClock, monitorSample, monitorFall, monitorBit, startCondition, stopCondition,
    hlen, byteOfBits_bitsMsb]

/-- Acknowledged bytes, sent from CLOCK low, are as many frames. -/
theorem foldl_txActs_acked (bytes : List Byte) (d : Bit) (out : List Token) :
    (bytes.flatMap fun v => txActs v false).foldl monitorAct (lowState d [] out) =
      lowState (d || !bytes.isEmpty) [] (out ++ bytes.map fun v => .byte v false) := by
  induction bytes generalizing d out with
  | nil => simp
  | cons v bytes ih => simp [List.foldl_append, foldl_txActs, ih]

/-- A START and acknowledged bytes after it, from any line levels. -/
theorem foldl_ackedActs (bytes : List Byte) (c d : Bit) :
    (ackedActs bytes).foldl monitorAct (monitorInit c d) =
      lowState (!bytes.isEmpty) [] (startTokens c d ++ bytes.map fun v => .byte v false) := by
  rw [ackedActs, List.foldl_append, foldl_startActs, foldl_txActs_acked, Bool.false_or]

/-- STOP from CLOCK low makes a STOP condition and nothing else (R68). -/
theorem monitorEnd_stopActs (d : Bit) (out : List Token) :
    monitorEnd (stopActs.foldl monitorAct (lowState d [] out)) = out ++ [.stop] := by
  simp [stopActs, monitorAct, monitorData, monitorClock, monitorCondition, startCondition, stopCondition, monitorEnd]

/-- A wait at the end of a trace is nothing to the monitor. -/
theorem monitor_append_wait (tr : List Event) (n t : Nat) (c d : Bit) :
    monitor (tr ++ [.wait n t]) c d = monitor tr c d := by
  simp only [monitor, List.foldl_append, List.foldl_cons, List.foldl_nil, monitorStep]

section
variable (s : State) (c d : Bit)

theorem monitor_startActs : monitor (pacedFrom s startActs) c d = startTokens c d := by
  rw [monitor_pacedFrom, foldl_startActs]
  rfl

theorem monitor_writeDoneActs (p : Params) (i v : Byte) :
    monitor (pacedFrom s (writeDoneActs p i v)) c d =
      startTokens c d ++ [.byte p.devAddr false, .byte i false, .byte v false, .stop] := by
  rw [monitor_pacedFrom, writeDoneActs, List.foldl_append, foldl_ackedActs, monitorEnd_stopActs, List.append_assoc]
  rfl

theorem monitor_writeAbortActs (p : Params) (i v : Byte) (k : Nat) :
    monitor (pacedFrom s (writeAbortActs p i v k)) c d =
      startTokens c d ++ ((writeBytes p i v).take (k - 1)).map (fun x => .byte x false) ++
        [.byte ((writeBytes p i v).getD (k - 1) 0) true] := by
  rw [monitor_pacedFrom, writeAbortActs, List.foldl_append, foldl_ackedActs, foldl_txActs]
  rfl

end

/-! ## The two ends of a WRITE on the wire -/

section
variable {s : State} {i v : Byte}

/-- START on the wire, from any line levels. -/
theorem wire_start (hs : Live s) : Wire .start s (startTokens s.scl s.sda) :=
  ⟨execNext .start s, pacedFrom s startActs, exec_live _ hs, rfl, monitor_startActs s _ _⟩

/-- The events of an acknowledged WRITE: its waveform and the settle delay (R76). -/
theorem execNext_write_acked_trace (h : DeviceAcks s i v) :
    (execNext (.write i v) s).trace = s.trace ++ (pacedFrom s (writeDoneActs s.params i v) ++
      [.wait (settleUs s.params) (s.time + 89 * s.params.halfUs)]) := by
  simp [execNext_write_acked i v s h]

/-- The events of a WRITE refused at byte `k`: its waveform and nothing else (R77). -/
theorem execNext_write_nacked_trace {k : Nat} (h : DeviceNacksAt s i v k) :
    (execNext (.write i v) s).trace = s.trace ++ pacedFrom s (writeAbortActs s.params i v k) := by
  simp [execNext_write_nacked i v s h]

/-- An acknowledged WRITE on the wire, from any line levels. -/
theorem wire_write_acked (hs : Live s) (h : DeviceAcks s i v) :
    Wire (.write i v) s
      (startTokens s.scl s.sda ++ [.byte s.params.devAddr false, .byte i false, .byte v false, .stop]) :=
  ⟨_, _, exec_live _ hs, execNext_write_acked_trace h, by rw [monitor_append_wait, monitor_writeDoneActs]⟩

/-- A WRITE refused at byte `k` on the wire, from any line levels. -/
theorem wire_write_nacked {k : Nat} (hs : Live s) (h : DeviceNacksAt s i v k) :
    Wire (.write i v) s
      (startTokens s.scl s.sda ++ ((writeBytes s.params i v).take (k - 1)).map (fun x => .byte x false) ++
        [.byte ((writeBytes s.params i v).getD (k - 1) 0) true]) :=
  ⟨_, _, exec_live _ hs, execNext_write_nacked_trace h, monitor_writeAbortActs s _ _ _ i v k⟩

/-- A WRITE that answers 0 was refused at one of its bytes (R80). -/
theorem deviceNacksAt_of_resp (h : (execNext (.write i v) s).resp = s.resp ++ [.flag false]) :
    ∃ k, DeviceNacksAt s i v k := by
  rcases acks_or_nacks i v s with ha | hn
  · simp [execNext_write_acked i v s ha] at h
  · exact hn

end

/-- Settles O26: the fields and the events of the acknowledged end, and the monitor's reading of them. -/
theorem writeAcknowledgedEndState : Obligations.WriteAcknowledgedEndState := by
  intro i v s hs h
  refine ⟨⟨execNext (.write i v) s, exec_live _ hs, ?_⟩, wire_write_acked hs h⟩
  rw [execNext_write_acked i v s h]
  simp [ackOf, Nat.add_assoc]

/-- Settles O27: the fields and the events of the refused end, and the monitor's reading of them. -/
theorem writeRefusedEndState : Obligations.WriteRefusedEndState := by
  intro i v k s hs h
  have hlen : (writeAbortActs s.params i v k).length = 2 + 28 * k := length_writeAbortActs h.1 h.2.1
  refine ⟨⟨execNext (.write i v) s, _, exec_live _ hs, execNext_write_nacked_trace h, ?_⟩, ?_⟩
  · rw [execNext_write_nacked i v s h]
    have hhalves : (pacedFrom s (writeAbortActs s.params i v k)).countP (isWaitOf s.params.halfUs) = 2 + 28 * k :=
      (countP_isWaitOf_paced _ _ _).trans hlen
    have hcount : 2 * (2 + 28 * k) = 4 + 56 * k := by omega
    simp [ackOf, hlen, hhalves, hcount]
  · exact wire_write_nacked hs h

/-! ## The START after a refused WRITE -/

/-- The tokens of a refused WRITE that makes no START condition: the address byte first, and no START. -/
theorem refused_tokens (a i v : Byte) {k : Nat} (h1 : 1 ≤ k) (h3 : k ≤ 3) :
    (([a, i, v].take (k - 1)).map (fun x => Token.byte x false) ++
        [Token.byte ([a, i, v].getD (k - 1) 0) true]).head? = some (.byte a (decide (k = 1))) ∧
      Token.start ∉ ([a, i, v].take (k - 1)).map (fun x => Token.byte x false) ++
        [Token.byte ([a, i, v].getD (k - 1) 0) true] := by
  obtain rfl | rfl | rfl : k = 1 ∨ k = 2 ∨ k = 3 := by omega
  all_goals simp

/-- Settles O58: a refused WRITE leaves CLOCK low, from where no START makes a START condition. -/
theorem abortedWriteSpoilsTheNextStart : Obligations.AbortedWriteSpoilsTheNextStart := by
  intro i v s t h hr
  obtain ⟨hs, rfl⟩ := exec_next_iff.1 h
  obtain ⟨k, hk⟩ := deviceNacksAt_of_resp hr
  have hscl : (execNext (.write i v) s).scl = false := by simp [execNext_write_nacked i v s hk]
  have hsda : (execNext (.write i v) s).sda = true := (execNext_write_row i v s).1
  have hlive : Live (execNext (.write i v) s) := (execNext_fault (by simp) s).trans hs
  have hnone : startTokens (execNext (.write i v) s).scl (execNext (.write i v) s).sda = [] := by
    simp [startTokens, hscl]
  refine ⟨hscl, hsda, ?start, fun x y hxy => ?acked, fun x y j hxy => ⟨_, wire_write_nacked hlive hxy, ?tokens⟩⟩
  case start => simpa only [hnone] using wire_start hlive
  case acked => simpa only [hnone, List.nil_append] using wire_write_acked hlive hxy
  case tokens => simpa only [hnone, List.nil_append, writeBytes] using refused_tokens _ x y hxy.1 hxy.2.1

end Sys2Proof.Machine
end

section
/-! PROOFS. When the line events of a command are recorded, and the settle delay between a WRITE and the next command
(R79). -/

namespace Sys2Proof.Machine

section
variable (s : State)

/-- The last act of a waveform begins when the acts before it, each with its half period, are over. -/
theorem pacedFrom_concat (acts : List Act) (a : Act) :
    pacedFrom s (acts ++ [a]) = pacedFrom s acts ++
      [eventAt (s.time + acts.length * s.params.halfUs) a,
        .wait s.params.halfUs (s.time + acts.length * s.params.halfUs)] :=
  pacedFrom_append s acts [a]

theorem lineTimes_pacedFrom (acts : List Act) :
    lineTimes (pacedFrom s acts) = (List.range acts.length).map fun k => s.time + k * s.params.halfUs :=
  lineTimes_paced _ _ _

theorem lineTimes_pacedFrom_head? {acts : List Act} (h : acts ≠ []) :
    (lineTimes (pacedFrom s acts)).head? = some s.time := by
  obtain ⟨n, hn⟩ := Nat.exists_eq_succ_of_ne_zero (mt List.length_eq_zero_iff.1 h)
  simp [lineTimes_pacedFrom, hn, List.range_succ_eq_map]

theorem lineTimes_pacedFrom_getLast? {acts : List Act} {n : Nat} (h : acts.length = n + 1) :
    (lineTimes (pacedFrom s acts)).getLast? = some (s.time + n * s.params.halfUs) := by
  simp [lineTimes_pacedFrom, h, List.range_succ]

/-- A command records a waveform that begins at once, and after it at most waits; the waveform is empty only for DELAY
and READACK. -/
theorem execNext_trace (i : Instr) :
    ∃ acts tail, (execNext i s).trace = s.trace ++ (pacedFrom s acts ++ tail) ∧ lineTimes tail = [] ∧
      (i ≠ .delay → i ≠ .readack → acts ≠ []) := by
  cases i with
  | delay => exact ⟨[], [.wait s.params.halfUs s.time], rfl, rfl, fun h => absurd rfl h⟩
  | start => exact ⟨startActs, [], by simp [execNext], rfl, by simp [startActs]⟩
  | stop => exact ⟨stopActs, [], by simp [execNext], rfl, by simp [stopActs]⟩
  | tx v => exact ⟨txActs v (answerAfter s (txLeadActs v)), [], by simp [execNext], rfl, by simp [txActs]⟩
  | rx => exact ⟨rxActs (rxRead s), [], by simp [execNext], rfl, by simp [rxActs]⟩
  | sendack a => exact ⟨sendackActs a, [], by simp [execNext], rfl, by simp [sendackActs, txBitActs]⟩
  | readack =>
    refine ⟨[], [], ?_, rfl, fun _ h => absurd rfl h⟩
    rcases readackNext_cases s with ⟨b, -, -, e⟩ | ⟨c, -, e⟩ <;> simp [execNext, e, pacedFrom, paced]
  | write x v =>
    rcases acks_or_nacks x v s with h | ⟨k, h⟩
    · exact ⟨_, _, execNext_write_acked_trace h, rfl, by simp [writeDoneActs, stopActs]⟩
    · exact ⟨_, [], by rw [execNext_write_nacked_trace h, List.append_nil], rfl, by simp [writeAbortActs, txActs]⟩

/-- A command's line events are recorded from its start on, the first one exactly there. -/
theorem exec_lineTimes {i : Instr} {u : State} (h : exec i s = .next u) :
    ∃ more, u.trace = s.trace ++ more ∧ (∀ f ∈ lineTimes more, s.time ≤ f) ∧
      (i ≠ .delay → i ≠ .readack → (lineTimes more).head? = some s.time) := by
  obtain ⟨-, rfl⟩ := exec_next_iff.1 h
  obtain ⟨acts, tail, htrace, htail, hne⟩ := execNext_trace s i
  refine ⟨pacedFrom s acts ++ tail, htrace, ?_, fun hd hr => ?_⟩ <;>
    rw [lineTimes_append, htail, List.append_nil]
  · simp [lineTimes_pacedFrom]
  · exact lineTimes_pacedFrom_head? s (hne hd hr)

end

/-- The last line event of a successful WRITE: STOP's release of DATA, in the half period before the settle delay. -/
theorem pacedFrom_writeDoneActs (s : State) (x v : Byte) :
    ∃ before, pacedFrom s (writeDoneActs s.params x v) = before ++
      [.drive .data true (s.time + 88 * s.params.halfUs), .wait s.params.halfUs (s.time + 88 * s.params.halfUs)] := by
  have hacts : writeDoneActs s.params x v =
      (ackedActs (writeBytes s.params x v) ++ [.drive .data false, .drive .clock true]) ++ [.drive .data true] := by
    rw [writeDoneActs, List.append_assoc]
    rfl
  rw [hacts, pacedFrom_concat]
  exact ⟨_, rfl⟩

theorem execNext_write_acked_time {x v : Byte} {s : State} (h : DeviceAcks s x v) :
    (execNext (.write x v) s).time = s.time + 89 * s.params.halfUs + settleUs s.params := by
  simp [execNext_write_acked x v s h]

theorem execNext_write_nacked_time {x v : Byte} {s : State} {k : Nat} (h : DeviceNacksAt s x v k) :
    (execNext (.write x v) s).time = s.time + (writeAbortActs s.params x v k).length * s.params.halfUs := by
  simp [execNext_write_nacked x v s h]

/-- Settles O50: the two ends of a WRITE, each with its last line event, and the events of the command that follows. -/
theorem settleSeparatesTransactions : Obligations.SettleSeparatesTransactions := by
  intro x v s t h
  obtain ⟨-, rfl⟩ := exec_next_iff.1 h
  rcases acks_or_nacks x v s with ha | ⟨k, hn⟩
  · refine ⟨_, s.time + 88 * s.params.halfUs, execNext_write_acked_trace ha, ?last, fun _ => ⟨?time, ?settle⟩,
      fun hr => ?other, fun _ _ hu => exec_lineTimes _ hu⟩
    case last =>
      rw [lineTimes_append, show lineTimes [.wait _ _] = [] from rfl, List.append_nil,
        lineTimes_pacedFrom_getLast? s (length_writeDoneActs _ _ _)]
    case time => rw [execNext_write_acked_time ha]; omega
    case settle =>
      obtain ⟨before, e⟩ := pacedFrom_writeDoneActs s x v
      have h89 : s.time + 89 * s.params.halfUs = s.time + 88 * s.params.halfUs + s.params.halfUs := by omega
      exact ⟨before, by rw [e, h89, List.append_assoc]; rfl⟩
    case other => simp [execNext_write_acked x v s ha] at hr
  · have hlen : (writeAbortActs s.params x v k).length = (1 + 28 * k) + 1 := by
      rw [length_writeAbortActs hn.1 hn.2.1]; omega
    refine ⟨_, _, execNext_write_nacked_trace hn, lineTimes_pacedFrom_getLast? s hlen, fun hr => ?other,
      fun _ => ?time, fun _ _ hu => exec_lineTimes _ hu⟩
    case other => simp [execNext_write_nacked x v s hn] at hr
    case time => rw [execNext_write_nacked_time hn, hlen, Nat.succ_mul, Nat.add_assoc]

end Sys2Proof.Machine
end

section
/-! PROOFS. Why a fault is recorded, what its entry writes, and that only reset clears it (R83 to R86). -/

namespace Sys2Proof.Machine

/-! ## Issuing a word in a live engine -/

/-- The step of a live engine whose program has not ended issues the next word (R17). -/
theorem step_eq_issue {s : State} {w : Word32} (hs : s.fault = none) (hw : s.program[s.pc]? = some w) :
    step s = issue w s := by
  simp only [step_live hs, hw]

theorem issue_command {w : Word32} {i : Instr} {s : State} (hs : s.fault = none) (hd : decode w = .command i) :
    issue w s = .next (execNext i s) := by
  simp only [issue, hd, exec_live i hs]

theorem issue_rejected {w : Word32} {c : FaultCode} {s : State} (hs : s.fault = none) (hd : decode w = .reject c) :
    issue w s = .next (raise c w s) := by
  simp only [issue, hd, whenLive_live _ hs]

/-- A live engine answers every word with a next state (R54, R85). -/
theorem issue_answers (w : Word32) {s : State} (hs : s.fault = none) : ∃ t, issue w s = .next t := by
  cases hd : decode w with
  | command i => exact ⟨_, issue_command hs hd⟩
  | reject c => exact ⟨_, issue_rejected hs hd⟩

/-! ## When a record is written -/

/-- The one word of READACK: it has no operands, so its row of the opcode map masks no bit out (R51). -/
theorem decode_eq_readack_iff {w : Word32} : decode w = .command .readack ↔ w = encode .readack := by
  have hmask : rowMask false false = BitVec.allOnes 32 := by decide
  rw [decode_eq_command_iff_row_none rfl rfl rfl, hmask, BitVec.and_allOnes]
  rfl

/-- READACK records the fault its flag gives, with its own word (R74, R84). -/
theorem readackNext_fault_iff {s : State} {r : FaultRecord} (hs : s.fault = none) :
    (readackNext s).fault = some r ↔ r.word = encode .readack ∧ readFlag s = .error r.code := by
  obtain ⟨b, ha, hf, e⟩ | ⟨c, hc, e⟩ := readackNext_cases s
  · simp [e, hs, readFlag_ok.2 ⟨ha, hf⟩]
  · cases r
    simp [e, hc, and_comm, eq_comm]

/-- A word is recorded with a fault exactly when it is the word issued and has the fault's cause (R83). -/
theorem issue_fault_iff {w : Word32} {s t : State} {r : FaultRecord} (h : issue w s = .next t) :
    t.fault = some r ↔ r.word = w ∧ FaultCause s r := by
  obtain ⟨hs, ⟨i, hd, rfl⟩ | ⟨c, hd, rfl⟩⟩ := issue_next_cases h
  · by_cases hi : i = .readack
    · subst hi
      obtain rfl := decode_eq_readack_iff.1 hd
      rw [show execNext .readack s = readackNext s from rfl, readackNext_fault_iff hs]
      exact and_congr_right fun hw => by simp [FaultCause, hw, hd]
    · rw [execNext_fault hi, hs]
      refine iff_of_false nofun ?_
      rintro ⟨rfl, hc⟩
      simp [FaultCause, hd, hi] at hc
  · cases r
    rw [raise_fault, Option.some.injEq, FaultRecord.mk.injEq, eq_comm (a := w), and_comm]
    refine and_congr_right ?_
    rintro rfl
    simp [FaultCause, hd]

/-! ## The four causes -/

/-- The decoder raises codes 1 and 2 only. -/
theorem code_of_decode_reject {w : Word32} {c : FaultCode} (h : decode w = .reject c) :
    c = .illegalOpcode ∨ c = .reservedField := by
  obtain ⟨-, hd⟩ | ⟨i, -, ⟨-, hd⟩ | ⟨-, hd⟩⟩ := decode_cases w <;> simp_all

/-- The flag gives codes 3 and 4 only. -/
theorem code_of_readFlag_error {s : State} {c : FaultCode} (h : readFlag s = .error c) :
    c = .ackUnwritten ∨ c = .ackStale := by
  cases ha : s.ack with
  | none => simp_all [readFlag_unwritten.2 ha]
  | some b =>
    cases hf : s.ackFresh with
    | true => simp_all [readFlag_ok.2 ⟨ha, hf⟩]
    | false => simp_all [readFlag_stale.2 ⟨by simp [ha], hf⟩]

section
variable {s : State} {w : Word32}

theorem faultCause_illegalOpcode_iff : FaultCause s ⟨.illegalOpcode, w⟩ ↔ decode w = .reject .illegalOpcode :=
  or_iff_left fun h => by simpa using code_of_readFlag_error h.2

theorem faultCause_reservedField_iff : FaultCause s ⟨.reservedField, w⟩ ↔ decode w = .reject .reservedField :=
  or_iff_left fun h => by simpa using code_of_readFlag_error h.2

theorem faultCause_ackUnwritten_iff : FaultCause s ⟨.ackUnwritten, w⟩ ↔ w = encode .readack ∧ s.ack = none :=
  (or_iff_right fun h => by simpa using code_of_decode_reject h).trans
    (and_congr decode_eq_readack_iff readFlag_unwritten)

theorem faultCause_ackStale_iff :
    FaultCause s ⟨.ackStale, w⟩ ↔ w = encode .readack ∧ s.ack ≠ none ∧ s.ackFresh = false :=
  (or_iff_right fun h => by simpa using code_of_decode_reject h).trans
    (and_congr decode_eq_readack_iff readFlag_stale)

end

/-- The legal opcodes whose commands do not use field A are all but those of TX, SENDACK and WRITE (R51). -/
theorem legal_opcode_without_A {n : Nat} (h : n < 9) (h0 : n ≠ 0) :
    n ∈ [0x1, 0x2, 0x3, 0x5, 0x7] ↔ n ∉ [4, 6, 8] := by
  simp only [List.mem_cons, List.not_mem_nil, or_false]
  omega

/-- The reserved words by their fields, with the opcodes that use field A in place of those that do not. -/
theorem decode_eq_reserved_iff_users {w : Word32} :
    decode w = .reject .reservedField ↔
      (1 ≤ (fieldOp w).toNat ∧ (fieldOp w).toNat ≤ 8) ∧
      (fieldZ0 w ≠ 0 ∨ fieldZ1 w ≠ 0 ∨ (fieldA w ≠ 0 ∧ (fieldOp w).toNat ∉ [4, 6, 8]) ∨
        (fieldB w ≠ 0 ∧ (fieldOp w).toNat ≠ 8)) := by
  rw [decode_eq_reserved_iff_fields, Nat.one_le_iff_ne_zero, ← Nat.lt_succ_iff]
  exact and_congr_right fun ⟨h0, h9⟩ => by rw [legal_opcode_without_A h9 h0]

/-! ## The obligations -/

/-- Settles O30: a record is the word issued with its cause, and each code has one cause. -/
theorem faultCausesAndRecord : Obligations.FaultCausesAndRecord := by
  refine ⟨rfl, fun c => by cases c <;> decide, fun s w hs hw => ?_⟩
  obtain ⟨t, ht⟩ := issue_answers w hs
  have record (c : FaultCode) : t.fault = some ⟨c, w⟩ ↔ FaultCause s ⟨c, w⟩ :=
    (issue_fault_iff ht).trans (and_iff_right rfl)
  refine ⟨t, (step_eq_issue hs hw).trans ht, ?illegal, ?reserved, ?unwritten, ?stale, fun r hr => ⟨?word, ?entry⟩⟩
  case illegal => exact (record _).trans (faultCause_illegalOpcode_iff.trans decode_eq_illegal_iff)
  case reserved => exact (record _).trans (faultCause_reservedField_iff.trans decode_eq_reserved_iff_users)
  case unwritten => exact (record _).trans faultCause_ackUnwritten_iff
  case stale => exact (record _).trans faultCause_ackStale_iff
  case word => exact ((issue_fault_iff ht).1 hr).1
  case entry => exact hr ▸ issue_eq_of_fault ht (by simp [hr])

/-- Settles O31: a rejected word raises, a command that faults has only raised, and a faulted engine is stuck. -/
theorem faultEntryIsPreciseAndStuck : Obligations.FaultEntryIsPreciseAndStuck := by
  refine ⟨fun s w c hs hw hd => ?rejected, fun s t i r h hr => ?executed,
    fun s r hr => ⟨step_stuck hr, fun i => exec_stuck i hr⟩⟩
  case rejected => exact (step_eq_issue hs hw).trans (issue_rejected hs hd)
  case executed =>
    obtain ⟨hs, rfl⟩ := exec_next_iff.1 h
    exact hr ▸ execNext_eq_of_fault hs (by simp [hr])

/-- Settles O32: a next state comes from a live engine only. -/
theorem onlyResetClearsAFault : Obligations.OnlyResetClearsAFault :=
  ⟨fun _ _ h => (step_next_cases h).1, fun _ _ _ h => (exec_next_iff.1 h).1, fun _ => rfl⟩

end Sys2Proof.Machine
end

section
/-! PROOFS. The values reset leaves in the engine (R96). -/

namespace Sys2Proof.Machine

/-- The engine's fields right after reset: fresh, and the lines at the levels the parameters give. -/
theorem resetWith_values (p : Params) :
    FreshReset (State.resetWith p) ∧ (State.resetWith p).scl = p.resetScl ∧
      (State.resetWith p).sda = p.resetSda ∧ (State.resetWith p).params = p :=
  ⟨⟨rfl, rfl, rfl, rfl, rfl⟩, rfl, rfl, rfl⟩

/-- Reset of a running engine gives the reset state of its parameters; the host keeps its program, its index and
its responses (log entry 10). -/
theorem engineReset_eq_resetWith (s : State) :
    engineReset s = { State.resetWith s.params with program := s.program, pc := s.pc, resp := s.resp } := rfl

/-- Settles O33: reset of a running engine differs from the reset state in the host's fields only. -/
theorem resetValues : Obligations.ResetValues := by
  refine ⟨resetWith_values, fun s => ?running⟩
  case running =>
    obtain ⟨hfresh, hscl, hsda, hparams⟩ := resetWith_values s.params
    rw [engineReset_eq_resetWith]
    exact ⟨hfresh, hscl, hsda, hparams, rfl⟩

end Sys2Proof.Machine
end

section
/-! PROOFS. The decoder and the encoder are inverse to each other (R49 to R56), the encoder's word as a number, and
words as bytes (R42). -/

namespace Sys2Proof

/-- A field holds operand A when it is the operand where the command uses A, and 0 where it does not (R56). -/
theorem eq_operandA_iff {i : Instr} {a : Byte} :
    a = i.operandA ↔ (i.usesA = true → a = i.operandA) ∧ ¬ (i.usesA = false ∧ a ≠ 0) := by
  cases i <;> simp [Instr.usesA, Instr.operandA]

theorem eq_operandB_iff {i : Instr} {b : Byte} :
    b = i.operandB ↔ (i.usesB = true → b = i.operandB) ∧ ¬ (i.usesB = false ∧ b ≠ 0) := by
  cases i <;> simp [Instr.usesB, Instr.operandB]

/-- A word is accepted as a command exactly when it is the command's encoding: the checks of R54 leave each of its five
fields one value. -/
theorem decode_eq_command_iff_encode {w : Word32} {i : Instr} : decode w = .command i ↔ w = encode i := by
  rw [decode_eq_command_iff, commandOf_eq_some_iff, encode, eq_packWord_iff, ReservedNonzero]
  simp only [not_or, ne_eq, not_not]
  constructor
  · rintro ⟨⟨hop, ha, hb⟩, h0, h1, hA, hB⟩
    exact ⟨hop, h0, h1, eq_operandA_iff.2 ⟨ha, hA⟩, eq_operandB_iff.2 ⟨hb, hB⟩⟩
  · rintro ⟨hop, h0, h1, ha, hb⟩
    obtain ⟨ha, hA⟩ := eq_operandA_iff.1 ha
    obtain ⟨hb, hB⟩ := eq_operandB_iff.1 hb
    exact ⟨⟨hop, ha, hb⟩, h0, h1, hA, hB⟩

theorem decode_encode (i : Instr) : decode (encode i) = .command i := decode_eq_command_iff_encode.2 rfl

/-- Settles O1: the encoding of a command is accepted as the command, its reserved and unused fields being 0. -/
theorem decodeOfEncodeIsTheCommand : Obligations.DecodeOfEncodeIsTheCommand :=
  fun i _ => decode_encode i

/-- Settles O2: an accepted word has no freedom left beside the command's own fields. -/
theorem acceptedWordIsTheEncoding : Obligations.AcceptedWordIsTheEncoding :=
  fun _ _ h => (decode_eq_command_iff_encode.1 h).symm

/-- The fields of a packed word do not overlap, so that the word is their weighted sum (R56). -/
theorem toNat_packWord (op : BitVec 4) (a b : Byte) :
    (packWord op a b).toNat = op.toNat + a.toNat * 2 ^ 8 + b.toNat * 2 ^ 16 := by
  have fits (x : Byte) : x.toNat * 2 ^ 16 < 2 ^ 32 := by omega
  have fits' (x : Byte) : x.toNat * 2 ^ 8 < 2 ^ 32 := by omega
  have hlow : 2 ^ 8 * a.toNat + op.toNat < 2 ^ 16 := by omega
  calc (packWord op a b).toNat
      = op.toNat ||| a.toNat * 2 ^ 8 ||| b.toNat * 2 ^ 16 := by
        simp only [packWord, BitVec.toNat_or, BitVec.toNat_shiftLeft, Nat.shiftLeft_eq,
          BitVec.toNat_setWidth_of_le (show 4 ≤ 32 by omega), BitVec.toNat_setWidth_of_le (show 8 ≤ 32 by omega),
          Nat.mod_eq_of_lt (fits' a), Nat.mod_eq_of_lt (fits b)]
    _ = 2 ^ 16 * b.toNat + (2 ^ 8 * a.toNat + op.toNat) := by
        rw [Nat.two_pow_add_eq_or_of_lt hlow, Nat.two_pow_add_eq_or_of_lt (by omega), Nat.mul_comm b.toNat,
          Nat.mul_comm a.toNat, Nat.or_comm, Nat.or_comm op.toNat]
    _ = op.toNat + a.toNat * 2 ^ 8 + b.toNat * 2 ^ 16 := by omega

/-- Settles O6: the formula of a packed word, at the command's own fields. -/
theorem encoderFormula : Obligations.EncoderFormula :=
  fun i => toNat_packWord i.opcode i.operandA i.operandB

/-- A byte stream that begins with a command's bytes gives the command and the bytes after them. -/
theorem decodeBytes_encodeBytes_append (i : Instr) (rest : List Byte) :
    decodeBytes (encodeBytes i ++ rest) = .whole (.command i) rest := by
  simp only [encodeBytes, wordBytes, List.cons_append, List.nil_append, decodeBytes, wordOfBytes_wordBytes,
    decode_encode]

/-- A program's byte stream reads back word by word. -/
theorem Machine.programOfBytes_programBytes (ws : List Word32) :
    Machine.programOfBytes (Machine.programBytes ws) = some ws := by
  induction ws with
  | nil => rfl
  | cons w ws ih =>
    have hcons : Machine.programBytes (w :: ws) = wordBytes w ++ Machine.programBytes ws := List.flatMap_cons
    simp only [hcons, wordBytes, List.cons_append, List.nil_append, Machine.programOfBytes, wordOfBytes_wordBytes, ih,
      Option.map_some]

/-- Settles O7: the bytes of every word spell it again (R42). -/
theorem programBytesReadBack : Obligations.ProgramBytesReadBack :=
  ⟨Machine.programOfBytes_programBytes, decodeBytes_encodeBytes_append, by decide⟩

/-- Settles O5: each accepted vector is the encoding of its command; each rejected one fails a check of R54. -/
theorem decodeVectors : Obligations.DecodeVectors := by
  have accepted {w : Word32} {i : Instr} (h : w = encode i) : decode w = .command i :=
    decode_eq_command_iff_encode.2 h
  exact ⟨accepted rfl, rfl, accepted rfl, accepted rfl, accepted rfl, rfl, accepted rfl, accepted rfl, accepted rfl,
    rfl, accepted rfl, rfl, rfl⟩

end Sys2Proof
end

section
/-! PROOFS. The assembler (R56): the statement of every command, what is refused, and the text of a line. -/

namespace Sys2Proof.Machine

/-! ## Statements -/

/-- The spelling of a command stands for the command alone: its operands are bytes. -/
theorem expand_source (i : Instr) : expand i.source = some [i] := by
  rw [expand, if_pos (show i.source.wellFormed = true from Laws.wellFormed_all i)]
  cases i <;> simp [Instr.source]

theorem assemble_source (i : Instr) : assemble i.source = some [encode i] := by
  rw [assemble, expand_source]
  rfl

/-- An operand is out of range when it is above 255, but for the count of WAIT (R56, R57). -/
theorem operandInRange_eq_false_iff {op : AsmOp} {n : Nat} :
    op.operandInRange n = false ↔ op ≠ .wait ∧ 255 < n := by
  simp only [AsmOp.operandInRange, Bool.or_eq_false_iff, beq_eq_false_iff_ne, decide_eq_false_iff_not]
  exact and_congr_right' (by omega)

/-- A statement is ill-formed by the number of its operands, or by an operand out of range (R56). -/
theorem wellFormed_eq_false_iff {src : Source} :
    src.wellFormed = false ↔
      src.operands.length ≠ src.op.arity ∨ (src.op ≠ .wait ∧ ∃ n ∈ src.operands, 255 < n) := by
  simp only [Source.wellFormed, Bool.and_eq_false_iff, beq_eq_false_iff_ne, List.all_eq_false, Bool.not_eq_true,
    operandInRange_eq_false_iff, and_left_comm, exists_and_left]

/-- A statement with as many operands as its mnemonic takes meets one of the rows of `expand`. -/
theorem expand_ne_none {src : Source} (hwf : src.wellFormed = true) : expand src ≠ none := by
  obtain ⟨op, ns⟩ := src
  have hlen : ns.length = op.arity := by
    simp only [Source.wellFormed, Bool.and_eq_true, beq_iff_eq] at hwf
    exact hwf.1
  rw [expand, if_pos hwf]
  cases op with
  | tx | sendack | wait =>
    obtain ⟨n, rfl⟩ := List.length_eq_one_iff.1 hlen
    exact Option.some_ne_none _
  | write =>
    obtain ⟨i, v, rfl⟩ := List.length_eq_two.1 hlen
    exact Option.some_ne_none _
  | delay | start | stop | rx | readack | ack | nack =>
    obtain rfl := List.length_eq_zero_iff.1 hlen
    exact Option.some_ne_none _

theorem expand_eq_none_iff {src : Source} : expand src = none ↔ src.wellFormed = false :=
  ⟨fun h => Bool.eq_false_iff.2 fun hwf => expand_ne_none hwf h, fun h => by simp [expand, h]⟩

theorem assemble_eq_none_iff {src : Source} :
    assemble src = none ↔
      src.operands.length ≠ src.op.arity ∨ (src.op ≠ .wait ∧ ∃ n ∈ src.operands, 255 < n) := by
  rw [assemble, Option.map_eq_none_iff, expand_eq_none_iff, wellFormed_eq_false_iff]

/-! ## Lines -/

/-- A line that parses gives the words of its statement. -/
theorem assembleLine_of_some {line : List Char} {src : Source} {ws : List Word32}
    (hp : parseLine line = .ok (some src)) (ha : assemble src = some ws) : assembleLine line = .ok ws := by
  simp only [assembleLine, hp, ha]

/-- A line whose statement is refused is refused for its operands. -/
theorem assembleLine_of_none {line : List Char} {src : Source}
    (hp : parseLine line = .ok (some src)) (ha : assemble src = none) : assembleLine line = .error .badOperands := by
  simp only [assembleLine, hp, ha]

theorem assembleLine_of_error {line : List Char} {e : AsmError} (hp : parseLine line = .error e) :
    assembleLine line = .error e := by
  simp only [assembleLine, hp]

/-- A text before a comment parses as it does alone. -/
theorem parseLine_comment {text tail : List Char} (h : ';' ∉ text) (ht : tail = [] ∨ tail.head? = some ';') :
    parseLine (text ++ tail) = parseLine text := by
  have e := takeWhile_comment (tail := []) h (.inl rfl)
  rw [List.append_nil] at e
  rw [parseLine, takeWhile_comment h ht, parseLine, e]

/-- A mnemonic in small letters is unknown, whatever its operand (R56). -/
theorem parseLine_small_letters {ds : List Char} {n : Nat} (h : Spells ds n) :
    parseLine (['t', 'x', ' '] ++ ds) = .error .unknownMnemonic := by
  have hs : ';' ∉ ['t', 'x', ' '] ++ ds := by simp [(not_mem_plain h.isPlain).2]
  have hlast : ∀ c, (['t', 'x', ' '] ++ ds).getLast? = some c → isBlank c = false := by
    intro c hc
    rw [List.getLast?_append_of_ne_nil _ h.nonempty] at hc
    exact last_plain h.isPlain c hc
  have htext := takeWhile_comment (tail := []) hs (.inl rfl)
  rw [List.append_nil] at htext
  have htrim : trimBlanks (['t', 'x', ' '] ++ ds) = ['t', 'x', ' '] ++ ds :=
    trimBlanks_eq (fun c hc => by cases hc; rfl) hlast
  have hm : (['t', 'x', ' '] ++ ds).takeWhile (fun c => !isBlank c) = ['t', 'x'] := by simp [isBlank]
  have hl : spellings.lookup ['t', 'x'] = none := by decide
  simp only [parseLine, htext, htrim, hm, hl, List.append_eq_nil_iff, List.cons_ne_nil, false_and, if_false]

/-- Every mnemonic in the table is a plain word, and the table finds it. -/
theorem of_mem_spellings {m : List Char} {op : AsmOp} (h : (m, op) ∈ spellings) :
    m.all plain = true ∧ m ≠ [] ∧ spellings.lookup m = some op := by
  have table : ∀ p ∈ spellings, p.1.all plain = true ∧ p.1 ≠ [] ∧ spellings.lookup p.1 = some p.2 := by decide
  exact table _ h

section
variable {m ds es tail : List Char} {op : AsmOp} {n k : Nat} {ws : List Word32}
  (hm : (m, op) ∈ spellings) (ht : tail = [] ∨ tail.head? = some ';')
include hm ht

/-- A line with no operand assembles to the words of its statement. -/
theorem assembleLine_none (ha : assemble ⟨op, []⟩ = some ws) : assembleLine (m ++ tail) = .ok ws := by
  obtain ⟨hplain, hne, hl⟩ := of_mem_spellings hm
  exact assembleLine_of_some (parseLine_none hplain hne hl ht) ha

/-- A line with one operand assembles to the words of its statement. -/
theorem assembleLine_one (h : Spells ds n) (ha : assemble ⟨op, [n]⟩ = some ws) :
    assembleLine (m ++ [' '] ++ ds ++ tail) = .ok ws := by
  obtain ⟨hplain, hne, hl⟩ := of_mem_spellings hm
  rw [List.append_assoc m]
  exact assembleLine_of_some (parseLine_one hplain hne hl h ht) ha

/-- A line with two operands assembles to the words of its statement. -/
theorem assembleLine_two (h : Spells ds n) (h' : Spells es k) (ha : assemble ⟨op, [n, k]⟩ = some ws) :
    assembleLine (m ++ [' '] ++ ds ++ [',', ' '] ++ es ++ tail) = .ok ws := by
  obtain ⟨hplain, hne, hl⟩ := of_mem_spellings hm
  have e : m ++ [' '] ++ ds ++ [',', ' '] ++ es ++ tail = m ++ ' ' :: (ds ++ ',' :: ' ' :: es) ++ tail := by simp
  rw [e]
  exact assembleLine_of_some (parseLine_two hplain hne hl h h' ht) ha

/-- A line without an operand is refused where its mnemonic takes some. -/
theorem assembleLine_none_refused (hr : 0 ≠ op.arity) : assembleLine (m ++ tail) = .error .badOperands := by
  obtain ⟨hplain, hne, hl⟩ := of_mem_spellings hm
  exact assembleLine_of_none (parseLine_none hplain hne hl ht) (assemble_eq_none_iff.2 (.inl hr))

/-- A line with one operand is refused where its mnemonic takes another number of them, or the operand is out of
range. -/
theorem assembleLine_one_refused (h : Spells ds n) (hr : 1 ≠ op.arity ∨ (op ≠ .wait ∧ 255 < n)) :
    assembleLine (m ++ [' '] ++ ds ++ tail) = .error .badOperands := by
  obtain ⟨hplain, hne, hl⟩ := of_mem_spellings hm
  rw [List.append_assoc m]
  exact assembleLine_of_none (parseLine_one hplain hne hl h ht)
    (assemble_eq_none_iff.2 (hr.imp_right fun ⟨hw, hn⟩ => ⟨hw, n, List.mem_singleton_self n, hn⟩))

end

/-- Settles O9: the statements by `assemble_source` and `assemble_eq_none_iff`; each line by what its text parses
to. -/
theorem assemblerSpellsEveryCommand : Obligations.AssemblerSpellsEveryCommand := by
  refine ⟨fun i => ⟨expand_source i, assemble_source i⟩, fun src => assemble_eq_none_iff,
    fun num tail a b k hnum ht => ?_⟩
  have hn : ∀ n, Spells (num n) n := spells_of hnum
  refine ⟨?delay, ?start, ?stop, ?tx, ?rx, ?sendack, ?readack, ?write, ?ack, ?nack, ?wait, ?txRange, ?stopOperand,
    ?writeOne, ?txNone, ?small, ?noDigit⟩
  case delay => exact assembleLine_none (by decide) ht (assemble_source .delay)
  case start => exact assembleLine_none (by decide) ht (assemble_source .start)
  case stop => exact assembleLine_none (by decide) ht (assemble_source .stop)
  case tx => exact assembleLine_one (m := ['T', 'X']) (by decide) ht (hn _) (assemble_source (.tx a))
  case rx => exact assembleLine_none (by decide) ht (assemble_source .rx)
  case sendack =>
    exact assembleLine_one (m := ['S', 'E', 'N', 'D', 'A', 'C', 'K']) (by decide) ht (hn _)
      (assemble_source (.sendack a))
  case readack => exact assembleLine_none (by decide) ht (assemble_source .readack)
  case write =>
    exact assembleLine_two (m := ['W', 'R', 'I', 'T', 'E']) (by decide) ht (hn _) (hn _)
      (assemble_source (.write a b))
  case ack => exact assembleLine_none (op := .ack) (by decide) ht rfl
  case nack => exact assembleLine_none (op := .nack) (by decide) ht rfl
  case wait => exact assembleLine_one (m := ['W', 'A', 'I', 'T']) (by decide) ht (hn k) (assemble_wait k)
  case txRange =>
    exact assembleLine_one_refused (m := ['T', 'X']) (op := .tx) (by decide) ht (hn _) (.inr ⟨by decide, by omega⟩)
  case stopOperand =>
    exact assembleLine_one_refused (m := ['S', 'T', 'O', 'P']) (op := .stop) (by decide) ht (hn k) (.inl (by decide))
  case writeOne =>
    exact assembleLine_one_refused (m := ['W', 'R', 'I', 'T', 'E']) (op := .write) (by decide) ht (hn _)
      (.inl (by decide))
  case txNone => exact assembleLine_none_refused (op := .tx) (by decide) ht (by decide)
  case small =>
    have hs : ';' ∉ ['t', 'x', ' '] ++ num a.toNat := by simp [(not_mem_plain (hn _).isPlain).2]
    exact assembleLine_of_error ((parseLine_comment hs ht).trans (parseLine_small_letters (hn _)))
  case noDigit => exact assembleLine_of_error ((parseLine_comment (by decide) ht).trans rfl)

end Sys2Proof.Machine
end

section
/-! PROOFS. What a step is: it runs the decoded command, or holds the state of an ended program (R17); what a sample
asks of the environment (R34, R35). -/

namespace Sys2Proof.Machine

/-- A row of the opcode table that decodes to a command is a word that does. -/
theorem decode_of_decodeTableWord {nbits w : Nat} {i : Instr} (h : decodeTableWord nbits w = some i) :
    decode (tableWord nbits w) = .command i := by
  rw [decodeTableWord, show decodeBytes (wordBytes (tableWord nbits w)) = .whole (decode (tableWord nbits w)) [] by
    simp only [wordBytes, decodeBytes, wordOfBytes_wordBytes]] at h
  cases hd : decode (tableWord nbits w) with
  | command j => simpa [hd] using h
  | reject c => simp [hd] at h

/-- Settles O10: the step issues the word at the index, and issuing a word runs the command it decodes to. -/
theorem stepRunsTheDecodedCommand : Obligations.StepRunsTheDecodedCommand := by
  refine ⟨fun s w i hs hw hd => ?_, fun s nbits w i hs hd => step_withFetchWord hs (decode_of_decodeTableWord hd)⟩
  rw [step_eq_issue hs hw, issue_command hs hd, exec_live i hs]

/-- Settles O12: past the end of the program there is no word to issue. -/
theorem endedProgramHoldsTheState : Obligations.EndedProgramHoldsTheState := by
  intro s hs hend
  rw [step_live hs, List.getElem?_eq_none hend]

/-- Settles O14: the answer is a function of the parameters and the trace, by the script's entry or its absence. -/
theorem sampleAsksTheEnvironment : Obligations.SampleAsksTheEnvironment := by
  refine ⟨fun s => rfl, fun s t hp htr => ?same, fun s hnone => ?free, fun s b hsome => ?scripted⟩
  case same => rw [answer, answer, hp, htr]
  case free => simp only [answer, oracle, hnone]
  case scripted => simp only [answer, oracle, hsome]

/-- Settles O34: the values of the default parameters. -/
theorem resetStateOfTheModel : Obligations.ResetStateOfTheModel :=
  ⟨rfl, by decide, by decide, rfl, rfl, rfl, rfl, by decide, rfl⟩

theorem execNext_live {i : Instr} (hi : i ≠ .readack) {s : State} (hs : Live s) : Live (execNext i s) :=
  (execNext_fault hi s).trans hs

/-- Settles O29: `exec_live` gives the next state, and only READACK's may hold a fault. -/
theorem everyCommandEnds : Obligations.EveryCommandEnds :=
  fun i s hs => ⟨execNext i s, exec_live i hs, fun hi => execNext_live hi hs⟩

end Sys2Proof.Machine
end

section
/-! PROOFS. The next state of every command (R62 to R77), field by field. -/

namespace Sys2Proof.Machine

/-! ## DELAY and the bus calls -/

/-- Settles O15: `execNext` of DELAY is one wait and its response. -/
theorem delayPassesOneHalfPeriod : Obligations.DelayPassesOneHalfPeriod :=
  fun _ hs => exec_live .delay hs

/-- Settles O16: `execNext` of START performs `startActs` and expires the flag. -/
theorem startClaimsTheBus : Obligations.StartClaimsTheBus :=
  fun _ hs => exec_live .start hs

/-- Settles O17: `execNext` of STOP performs `stopActs` and expires the flag. -/
theorem stopReleasesTheBus : Obligations.StopReleasesTheBus :=
  fun _ hs => exec_live .stop hs

/-- Settles O18: `execNext` of TX performs `txActs` with the oracle's answer after `txLeadActs`. -/
theorem txSendsTheByteAndSamplesTheAck : Obligations.TxSendsTheByteAndSamplesTheAck :=
  fun v _ hs => exec_live (.tx v) hs

theorem ackLevel_eq_ite (a : Byte) : ackLevel a = if a = 0 then false else true := by
  by_cases h : a = 0 <;> simp [ackLevel, h]

/-- Settles O21: `execNext` of SENDACK performs one data bit, of the level `ackLevel`. -/
theorem sendackDrivesTheAckBit : Obligations.SendackDrivesTheAckBit := by
  intro a s hs
  rw [← ackLevel_eq_ite]
  exact exec_live (.sendack a) hs

/-! ## RX -/

/-- A bit shifted in becomes bit 0 (R72). -/
theorem getLsbD_shiftIn_zero (r : Byte) (b : Bit) : (shiftIn r b).getLsbD 0 = b := by
  cases b <;> simp [shiftIn]

/-- A bit shifted in moves every other bit up by one (R72). -/
theorem getLsbD_shiftIn_succ (r : Byte) (b : Bit) {j : Nat} (hj : j < 7) :
    (shiftIn r b).getLsbD (j + 1) = r.getLsbD j := by
  have h8 : j + 1 < 8 := by omega
  have hj8 : j < 8 := by omega
  cases b <;> simp [shiftIn, h8, BitVec.getLsbD_eq_getElem hj8]

theorem byteOfBits_concat (bs : List Bit) (b : Bit) : byteOfBits (bs ++ [b]) = shiftIn (byteOfBits bs) b := by
  rw [byteOfBits, List.foldl_append]
  rfl

/-- The accumulator holds the bits shifted in, the last one as bit 0 (R27). -/
theorem getLsbD_byteOfBits (bs : List Bit) {j : Nat} (hj : j < 8) :
    (byteOfBits bs).getLsbD j = bs.reverse.getD j false := by
  induction bs using List.reverseRecOn generalizing j with
  | nil => simp [byteOfBits]
  | append_singleton bs b ih =>
    rw [byteOfBits_concat, List.reverse_append]
    cases j with
    | zero => exact getLsbD_shiftIn_zero _ b
    | succ j => exact (getLsbD_shiftIn_succ _ b (by omega)).trans (ih (by omega))

/-- The first of eight bits becomes bit 7, the last bit 0 (R41). -/
theorem getElem?_eq_getLsbD_byteOfBits {bs : List Bit} (hlen : bs.length = 8) {k : Nat} (hk : k < 8) :
    bs[k]? = some ((byteOfBits bs).getLsbD (7 - k)) := by
  have h7 : 7 - k < bs.length := by omega
  have hidx : bs.length - 1 - (7 - k) = k := by omega
  rw [getLsbD_byteOfBits bs (by omega), List.getD_eq_getElem?_getD, List.getElem?_reverse h7, hidx,
    List.getElem?_eq_getElem (by omega), Option.getD_some]

/-- Settles O20: the bits are those RX reads, and its response the byte they spell. -/
theorem rxReceivesTheSampledByte : Obligations.RxReceivesTheSampledByte := by
  intro s hs
  have hlen : (rxRead s).length = 8 := length_rxRead s
  refine ⟨rxRead s, byteOfBits (rxRead s), hlen, fun k hk => ⟨?sampled, ?spelled⟩, ?next⟩
  case sampled => exact rxAnswers_getElem s 8 [] k (Nat.zero_le k) (by simpa using hk)
  case spelled => exact getElem?_eq_getLsbD_byteOfBits hlen hk
  case next =>
    have htime : (rxActs (rxRead s)).length = 25 := by rw [length_rxActs, hlen]
    have hsda : lastAct .data s.sda (rxActs (rxRead s)) = s.sda := data_rxActs _ _
    have hscl : lastAct .clock s.scl (rxActs (rxRead s)) = false := clock_rxActs _ _
    rw [exec_live .rx hs]
    simp only [execNext, respond, expireAck, perform, htime, hsda, hscl]
    rfl

/-! ## READACK -/

section
variable {s : State} (hs : Live s)
include hs

theorem exec_readack_fresh {b : Bool} (ha : s.ack = some b) (hf : s.ackFresh = true) :
    exec .readack s = .next { s with resp := s.resp ++ [.flag b], pc := s.pc + 1 } := by
  rw [exec_live .readack hs, execNext, readackNext_ok ha hf]
  rfl

theorem exec_readack_unwritten (ha : s.ack = none) :
    exec .readack s = .next { s with fault := some ⟨.ackUnwritten, 0x00000007⟩ } := by
  rw [exec_live .readack hs, execNext, readackNext_unwritten ha]
  rfl

theorem exec_readack_stale (ha : s.ack ≠ none) (hf : s.ackFresh = false) :
    exec .readack s = .next { s with fault := some ⟨.ackStale, 0x00000007⟩ } := by
  rw [exec_live .readack hs, execNext, readackNext_stale ha hf]
  rfl

end

/-- Settles O22: READACK leaves the flag and its freshness, so a second one meets the same. -/
theorem readackGivesTheFreshFlag : Obligations.ReadackGivesTheFreshFlag := by
  intro s b hs ha hf
  have first := exec_readack_fresh hs ha hf
  have second := exec_readack_fresh (s := { s with resp := s.resp ++ [.flag b], pc := s.pc + 1 }) hs ha hf
  exact ⟨first, _, _, first, second, List.append_assoc ..⟩

/-- Settles O23: the two faults a read of the flag gives. -/
theorem readackFaults : Obligations.ReadackFaults :=
  ⟨fun _ hs ha => exec_readack_unwritten hs ha, fun _ hs ha hf => exec_readack_stale hs ha hf⟩

/-! ## WRITE -/

/-- Settles O24: the acknowledged path of WRITE. -/
theorem writeRunsWhenAcknowledged : Obligations.WriteRunsWhenAcknowledged := by
  intro i v s hs h
  have hacts : writeDoneActs s.params i v =
      startActs ++ txActs s.params.devAddr false ++ txActs i false ++ txActs v false ++ stopActs := by
    simp [writeDoneActs, ackedActs, writeBytes]
  rw [exec_live _ hs, execNext_write_acked i v s h, ← hacts]
  simp only [respond, settle, wait, expireAck, setAck, perform, clock_writeDoneActs, data_writeDoneActs,
    length_writeDoneActs]
  rfl

/-- Settles O25: the path of WRITE that stops at byte `k`. -/
theorem writeRunsWhenRefused : Obligations.WriteRunsWhenRefused := by
  intro i v k s hs h
  rw [exec_live _ hs, execNext_write_nacked i v s h]
  simp only [respond, setAck, perform, clock_writeAbortActs, data_writeAbortActs, length_writeAbortActs h.1 h.2.1]
  rfl

/-- Settles O28: WRITE has one path for each pattern of the acknowledge answers, and answers 1 on the first only. -/
theorem writeFailsOnlyOnAMissingAcknowledge : Obligations.WriteFailsOnlyOnAMissingAcknowledge := by
  intro i v s hs
  have hlive : (execNext (.write i v) s).fault = none := execNext_live (by simp) hs
  rcases acks_or_nacks i v s with ha | ⟨k, hn⟩
  · refine ⟨_, true, exec_live _ hs, hlive, by simp [execNext_write_acked i v s ha], iff_of_true rfl ha, ?_⟩
    exact iff_of_false nofun fun ⟨k, hn⟩ => not_acks_and_nacks ha hn
  · refine ⟨_, false, exec_live _ hs, hlive, by simp [execNext_write_nacked i v s hn], ?_, iff_of_true rfl ⟨k, hn⟩⟩
    exact iff_of_false nofun fun ha => not_acks_and_nacks ha hn

/-! ## Costs -/

/-- The cost of a command is read off its next state. -/
theorem costs_of_execNext {i : Instr} {s : State} {us events : Nat} (hs : Live s)
    (htime : (execNext i s).time = s.time + us) (hlen : (execNext i s).trace.length = s.trace.length + events) :
    Costs i s us events :=
  ⟨execNext i s, exec_live i hs, htime, hlen⟩

/-- READACK writes the fault record or the host's fields, and nothing else of the engine (R74). -/
theorem readackNext_frame (s : State) :
    ∃ f k rs, readackNext s = { s with fault := f, pc := k, resp := rs } := by
  rcases readackNext_cases s with ⟨b, -, -, e⟩ | ⟨c, -, e⟩ <;> exact ⟨_, _, _, e⟩

/-- Settles O39: each cost from the length of the command's waveform. -/
theorem timingTable : Obligations.TimingTable := by
  intro s hs
  refine ⟨?delay, ?start, ?stop, fun v => ?tx, ?rx, fun a => ?sendack, ?readack, fun i v h => ?acked,
    fun i v k h => ?refused⟩
  case delay | start | stop | tx | rx | sendack => exact costs_of_execNext hs (by simp [execNext]) (by simp [execNext])
  case readack =>
    obtain ⟨f, k, rs, e⟩ := readackNext_frame s
    exact costs_of_execNext hs (by simp [execNext, e]) (by simp [execNext, e])
  case acked =>
    refine costs_of_execNext hs ?_ ?_
    · rw [execNext_write_acked_time h, Nat.add_assoc]
    · simp [execNext_write_acked_trace h]
  case refused =>
    have hacts : (writeAbortActs s.params i v k).length = 2 + 28 * k := length_writeAbortActs h.1 h.2.1
    refine costs_of_execNext hs ?_ ?_
    · rw [execNext_write_nacked_time h, hacts]
    · rw [execNext_write_nacked_trace h, List.length_append, length_pacedFrom, hacts, Nat.mul_add, ← Nat.mul_assoc]

/-! ## CLOCK after a command -/

/-- Settles O43: every other command's waveform ends with CLOCK low, and WRITE's flag tells which of its ends it
reached. -/
theorem onlyStopLeavesClockHigh : Obligations.OnlyStopLeavesClockHigh := by
  intro i s t h hscl
  obtain ⟨-, rfl⟩ := exec_next_iff.1 h
  cases i with
  | stop => exact .inl rfl
  | delay => exact .inr (.inr ⟨.inl rfl, hscl⟩)
  | readack =>
    obtain ⟨f, k, rs, e⟩ := readackNext_frame s
    rw [execNext, e] at hscl
    exact .inr (.inr ⟨.inr rfl, hscl⟩)
  | write x v =>
    obtain ⟨-, -, hfresh⟩ := execNext_write_row x v s
    have hresp := execNext_write_resp x v s
    rw [hfresh, hscl] at hresp
    exact .inr (.inl ⟨x, v, rfl, hresp⟩)
  | start | tx | rx | sendack => simp [execNext] at hscl

/-! ## READACK after a command -/

/-- Settles O37: READACK reads the flag and the freshness that the command before left. -/
theorem readackAfterEachCommand : Obligations.ReadackAfterEachCommand := by
  refine ⟨fun v s hs => ?tx, fun i s t hi ha h => ?expired, fun x v s t h => ?write⟩
  case tx =>
    have hlive : Live (execNext (.tx v) s) := execNext_live (by simp) hs
    have hdelayed : Live (execNext .delay (execNext (.tx v) s)) := execNext_live (by simp) hlive
    exact ⟨_, _, exec_live _ hs, exec_live .delay hlive, exec_readack_fresh hlive rfl rfl,
      exec_readack_fresh hdelayed rfl rfl⟩
  case expired =>
    obtain ⟨hs, rfl⟩ := exec_next_iff.1 h
    obtain ⟨hfresh, hack⟩ := execNext_expires hi s
    have hlive : Live (execNext i s) := execNext_live (by rintro rfl; simp at hi) hs
    exact exec_readack_stale hlive (hack ▸ ha) hfresh
  case write =>
    obtain ⟨hs, rfl⟩ := exec_next_iff.1 h
    obtain ⟨-, hack, hscl⟩ := execNext_write_row x v s
    have hlive : Live (execNext (.write x v) s) := execNext_live (by simp) hs
    have hfresh {b : Bit} (hr : (execNext (.write x v) s).resp = s.resp ++ [.flag b]) :
        (execNext (.write x v) s).ackFresh = !b := by
      rw [execNext_write_resp x v s] at hr
      simpa using hr
    refine ⟨fun hr => ?_, fun hr => ?_⟩
    · exact exec_readack_stale hlive (by simp [hack]) (hfresh hr)
    · refine exec_readack_fresh hlive ?_ (hfresh hr)
      rw [hack]
      simpa [hfresh hr] using hscl

end Sys2Proof.Machine
end

section
/-! PROOFS. The host's side of a step (R17): the index, the responses, and that the engine sees neither. -/

namespace Sys2Proof.Machine

/-- How a command ends: it hands one response to the host, which goes on by one; or, a READACK whose flag may not be
read, it takes the flag's fault. -/
theorem execNext_ends (i : Instr) (s : State) :
    ((∃ r, (execNext i s).resp = s.resp ++ [r]) ∧ (execNext i s).pc = s.pc + 1 ∧ (execNext i s).fault = s.fault) ∨
    (i = .readack ∧ ∃ c, readFlag s = .error c ∧ execNext i s = raise c (encode .readack) s) := by
  cases i with
  | readack =>
    rcases readackNext_cases s with ⟨b, -, -, e⟩ | ⟨c, hc, e⟩
    · exact .inl ⟨⟨.flag b, by simp [execNext, e]⟩, by simp [execNext, e], by simp [execNext, e]⟩
    · exact .inr ⟨rfl, c, hc, e⟩
  | write x v =>
    rcases execNext_write_cases x v s with e | ⟨k, e⟩
    · exact .inl ⟨⟨.flag true, by simp [e]⟩, by simp [e], by simp [e]⟩
    · exact .inl ⟨⟨.flag false, by simp [e]⟩, by simp [e], by simp [e]⟩
  | delay | start | stop | tx | rx | sendack =>
    exact .inl ⟨by simp [execNext], by simp [execNext], by simp [execNext]⟩

/-- Settles O11: a step that issues a word ends as its command does, or raises the fault of a rejected word. -/
theorem hostProgramAdvances : Obligations.HostProgramAdvances := by
  intro s t w hw h
  obtain ⟨hs, ⟨hnone, -⟩ | ⟨w', i, -, -, rfl⟩ | ⟨w', c, -, -, rfl⟩⟩ := step_next_cases h
  · simp [hw] at hnone
  · refine ⟨execNext_program i s, ?_⟩
    rcases execNext_ends i s with ⟨hresp, hpc, hf⟩ | ⟨-, c, -, e⟩
    · exact .inl ⟨hf.trans hs, hpc, hresp⟩
    · exact .inr ⟨by simp [e], by simp [e], by simp [e]⟩
  · exact ⟨rfl, .inr ⟨by simp, rfl, rfl⟩⟩

/-! ## The engine does not see the host -/

section
variable (ws : List Word32) (p : Nat) (rs : List Response) (s : State)

/-- No sample of RX depends on the host's fields. -/
theorem rxAnswers_host (k : Nat) (bs : List Bit) :
    rxAnswers { s with program := ws, pc := p, resp := rs } k bs = rxAnswers s k bs := by
  induction k generalizing bs with
  | zero => rfl
  | succ k ih => exact ih _

/-- With other host fields a WRITE takes the same path. -/
theorem execNext_write_host (x v : Byte) :
    ∃ new k, (execNext (.write x v) s).resp = s.resp ++ new ∧
      execNext (.write x v) { s with program := ws, pc := p, resp := rs } =
        { execNext (.write x v) s with program := ws, pc := k, resp := rs ++ new } := by
  rcases acks_or_nacks x v s with h | ⟨k, h⟩
  · have h' : DeviceAcks { s with program := ws, pc := p, resp := rs } x v := h
    rw [execNext_write_acked x v s h, execNext_write_acked x v _ h']
    dsimp only
    generalize writeDoneActs s.params x v = acts
    exact ⟨[.flag true], _, rfl, rfl⟩
  · have h' : DeviceNacksAt { s with program := ws, pc := p, resp := rs } x v k := h
    rw [execNext_write_nacked x v s h, execNext_write_nacked x v _ h']
    exact ⟨[.flag false], _, rfl, rfl⟩

/-- With other host fields a command reaches the same next state, up to those fields, and gives the same response. -/
theorem execNext_host (i : Instr) :
    ∃ new k, (execNext i s).resp = s.resp ++ new ∧
      execNext i { s with program := ws, pc := p, resp := rs } =
        { execNext i s with program := ws, pc := k, resp := rs ++ new } := by
  cases i with
  | rx =>
    simp only [execNext, rxRead, rxAnswers_host]
    generalize rxAnswers s 8 [] = bits
    exact ⟨[.byte (byteOfBits bits)], _, rfl, rfl⟩
  | readack =>
    have hflag : readFlag { s with program := ws, pc := p, resp := rs } = readFlag s := rfl
    simp only [execNext, readackNext, hflag]
    cases readFlag s with
    | ok b => exact ⟨[.flag b], _, rfl, rfl⟩
    | error c => exact ⟨[], p, (List.append_nil _).symm, by rw [List.append_nil]; rfl⟩
  | write x v => exact execNext_write_host ws p rs s x v
  | delay | start | stop | tx | sendack => exact ⟨[.nothing], _, rfl, rfl⟩

end

/-- Settles O41: the fields of the engine are among those the two next states share. -/
theorem hostProgramIsInvisible : Obligations.HostProgramIsInvisible := by
  intro i s t ws p rs h
  obtain ⟨hs, rfl⟩ := exec_next_iff.1 h
  obtain ⟨new, k, hresp, e⟩ := execNext_host ws p rs s i
  refine ⟨_, new, exec_live i hs, ?_, hresp, by rw [e]⟩
  rw [e]
  exact ⟨rfl, rfl, rfl, rfl, rfl, rfl, rfl, rfl⟩

end Sys2Proof.Machine
end

section
/-! PROOFS. The invariants every step keeps, and their start at reset. -/

namespace Sys2Proof.Machine

/-! ## The host program -/

/-- Settles O46: a response goes with its index; a fault leaves the host at the word that was issued, which is
READACK's own where the flag gave it. -/
theorem stepKeepsHostInv : Obligations.StepKeepsHostInv := by
  intro s t ⟨hresp, hpc, hstop⟩ h
  have index {w : Word32} (hw : s.program[s.pc]? = some w) : s.pc + 1 ≤ s.program.length :=
    (List.getElem?_eq_some_iff.1 hw).1
  obtain ⟨hs, ⟨-, rfl⟩ | ⟨w, i, hw, hd, rfl⟩ | ⟨w, c, hw, hd, rfl⟩⟩ := step_next_cases h
  · exact ⟨hresp, hpc, hstop⟩
  · rcases execNext_ends i s with ⟨⟨r, hr⟩, hnext, hf⟩ | ⟨rfl, c, hc, e⟩
    · refine ⟨by simp [hr, hnext, hresp], by simpa [hnext] using index hw, fun r hr => ?_⟩
      simp [hf, hs] at hr
    · obtain rfl := decode_eq_readack_iff.1 hd
      rw [e]
      refine ⟨hresp, hpc, fun r hr => ?_⟩
      obtain rfl : ⟨c, encode .readack⟩ = r := Option.some.inj hr
      exact ⟨hw, .inr ⟨hd, hc⟩⟩
  · refine ⟨hresp, hpc, fun r hr => ?_⟩
    obtain rfl : ⟨c, w⟩ = r := Option.some.inj hr
    exact ⟨hw, .inl hd⟩

/-! ## The acknowledge flag -/

/-- A command other than DELAY and READACK leaves a stale flag, or a written one with CLOCK low and DATA released, as
TX does (R69). -/
theorem execNext_flagInv (i : Instr) {s : State} (hinv : FlagInv s) : FlagInv (execNext i s) := by
  cases i with
  | delay => exact hinv
  | tx v => exact fun _ => ⟨nofun, rfl, rfl⟩
  | start | stop | rx | sendack => exact nofun
  | readack =>
    obtain ⟨f, k, rs, e⟩ := readackNext_frame s
    rw [execNext, e]
    exact hinv
  | write x v =>
    obtain ⟨hsda, hack, hfresh⟩ := execNext_write_row x v s
    exact fun hf => ⟨by simp [hack], by simpa [hf] using hfresh, hsda⟩

/-- Settles O45: what does not execute a command leaves the flag and the lines. -/
theorem stepKeepsFlagInv : Obligations.StepKeepsFlagInv := by
  intro s t hinv h
  obtain ⟨-, ⟨-, rfl⟩ | ⟨w, i, -, -, rfl⟩ | ⟨w, c, -, -, rfl⟩⟩ := step_next_cases h
  · exact hinv
  · exact execNext_flagInv i hinv
  · exact hinv

end Sys2Proof.Machine
end

section
/-! PROOFS. What a step adds to the trace (R22, R23), and that the trace invariant is kept (R33 to R37, R59). -/

namespace Sys2Proof.Machine

/-! ## Events and time -/

theorem elapsed_pacedFrom (s : State) (acts : List Act) :
    elapsed (pacedFrom s acts) = acts.length * s.params.halfUs :=
  elapsed_paced _ _ _

/-- A command only adds events, and time passes by the waits among them. -/
theorem execNext_adds (i : Instr) (s : State) :
    ∃ evs, (execNext i s).trace = s.trace ++ evs ∧ (execNext i s).time = s.time + elapsed evs := by
  cases i with
  | delay => exact ⟨_, rfl, rfl⟩
  | readack =>
    obtain ⟨f, k, rs, e⟩ := readackNext_frame s
    exact ⟨[], by simp [execNext, e], by simp [execNext, e, elapsed]⟩
  | write x v =>
    rcases acks_or_nacks x v s with h | ⟨k, h⟩
    · refine ⟨_, execNext_write_acked_trace h, ?_⟩
      rw [execNext_write_acked_time h, elapsed_append, elapsed_pacedFrom, length_writeDoneActs, Nat.add_assoc]
      rfl
    · exact ⟨_, execNext_write_nacked_trace h, by rw [execNext_write_nacked_time h, elapsed_pacedFrom]⟩
  | start | stop | tx | rx | sendack => exact ⟨_, rfl, by rw [elapsed_pacedFrom]; rfl⟩

/-- Settles O42: a step that executes no command adds nothing. -/
theorem stepOnlyAddsToTheTrace : Obligations.StepOnlyAddsToTheTrace := by
  intro s t h
  have none_added : s.trace = s.trace ++ [] ∧ s.time = s.time + elapsed [] := ⟨(List.append_nil _).symm, rfl⟩
  obtain ⟨-, ⟨-, rfl⟩ | ⟨w, i, -, -, rfl⟩ | ⟨w, c, -, -, rfl⟩⟩ := step_next_cases h
  · exact ⟨rfl, rfl, [], none_added⟩
  · exact ⟨execNext_params i s, execNext_program i s, execNext_adds i s⟩
  · exact ⟨rfl, rfl, [], none_added⟩

/-! ## The trace invariant, sequence by sequence -/

section
variable {s : State} (h : TraceInv s)
include h

theorem traceInv_expireAck : TraceInv (expireAck s) := h.congr rfl rfl rfl rfl rfl
theorem traceInv_setAck (b : Bit) : TraceInv (setAck b s) := h.congr rfl rfl rfl rfl rfl
theorem traceInv_respond (r : Response) : TraceInv (respond r s) := h.congr rfl rfl rfl rfl rfl
theorem traceInv_raise (c : FaultCode) (w : Word32) : TraceInv (raise c w s) := h.congr rfl rfl rfl rfl rfl

theorem traceInv_startSeq : TraceInv (startSeq s) :=
  traceInv_expireAck (traceInv_driveHalf (traceInv_driveHalf h _ _) _ _)

theorem traceInv_stopSeq : TraceInv (stopSeq s) :=
  traceInv_expireAck (traceInv_driveHalf (traceInv_driveHalf (traceInv_driveHalf h _ _) _ _) _ _)

theorem traceInv_sendackSeq (a : Byte) : TraceInv (sendackSeq a s) :=
  traceInv_expireAck (traceInv_driveHalf (traceInv_driveHalf (traceInv_driveHalf h _ _) _ _) _ _)

theorem traceInv_txBit (b : Bit) : TraceInv (txBit s b) :=
  traceInv_driveHalf (traceInv_driveHalf (traceInv_driveHalf h _ _) _ _) _ _

theorem traceInv_txBits (bs : List Bit) : TraceInv (bs.foldl txBit s) := by
  induction bs generalizing s with
  | nil => exact h
  | cons b bs ih => exact ih (traceInv_txBit h b)

/-- TX samples where it has raised CLOCK. -/
theorem traceInv_txSeq (v : Byte) : TraceInv (txSeq v s) := by
  have hlead : TraceInv (txLead v s) := traceInv_driveHalf (traceInv_driveHalf (traceInv_txBits h _) _ _) _ _
  exact traceInv_setAck (traceInv_driveHalf (traceInv_sampleHalf hlead rfl) _ _) _

/-- Each bit of RX samples where it has raised CLOCK. -/
theorem traceInv_rxBits (k : Nat) (r : Byte) : TraceInv (rxBits k (r, s)).2 := by
  induction k generalizing s r with
  | zero => exact h
  | succ k ih =>
    have hedge : TraceInv (rxEdge s) := traceInv_driveHalf (traceInv_driveHalf h _ _) _ _
    exact ih (traceInv_sampleHalf hedge rfl) _

theorem traceInv_rxSeq : TraceInv (rxSeq s).2 :=
  traceInv_expireAck (traceInv_driveHalf (traceInv_rxBits h 8 0) _ _)

/-- WRITE is START, up to three TX, and STOP with the settle delay. -/
theorem traceInv_writeSeq (i v : Byte) : TraceInv (writeSeq i v s).1 := by
  have hAddr : TraceInv (writeAddr s) := traceInv_txSeq (traceInv_startSeq h) _
  have hIndex : TraceInv (writeIndex i s) := traceInv_txSeq hAddr i
  have hValue : TraceInv (writeValue i v s) := traceInv_txSeq hIndex v
  unfold writeSeq
  split_ifs
  · exact hAddr
  · exact hIndex
  · exact hValue
  · exact traceInv_wait (traceInv_stopSeq hValue) _

/-- A command keeps the trace invariant, its response and its fault being no events. -/
theorem traceInv_execNext (i : Instr) : TraceInv (execNext i s) := by
  cases i with
  | delay => exact traceInv_respond (traceInv_wait h _) _
  | start => exact traceInv_respond (startSeq_eq s ▸ traceInv_startSeq h) _
  | stop => exact traceInv_respond (stopSeq_eq s ▸ traceInv_stopSeq h) _
  | tx v => exact traceInv_respond (txSeq_eq v s ▸ traceInv_txSeq h v) _
  | rx =>
    have hrx := traceInv_rxSeq h
    rw [rxSeq_eq] at hrx
    exact traceInv_respond hrx _
  | sendack a => exact traceInv_respond (sendackSeq_eq a s ▸ traceInv_sendackSeq h a) _
  | readack =>
    obtain ⟨f, k, rs, e⟩ := readackNext_frame s
    rw [execNext, e]
    exact h.congr rfl rfl rfl rfl rfl
  | write i v => exact traceInv_respond (traceInv_writeSeq h i v) _

end

/-- Settles O44: a step executes a command, raises a fault, or holds the state. -/
theorem stepKeepsTraceInv : Obligations.StepKeepsTraceInv := by
  intro s t hinv h
  obtain ⟨-, ⟨-, rfl⟩ | ⟨w, i, -, -, rfl⟩ | ⟨w, c, -, -, rfl⟩⟩ := step_next_cases h
  · exact hinv
  · exact traceInv_execNext hinv i
  · exact traceInv_raise hinv c w

/-! ## Line events and time -/

/-- Times at least `h` apart, none before `lo` and each at least `h` before `hi`. -/
def SpacedWithin (h lo hi : Nat) (ts : List Nat) : Prop :=
  ts.Pairwise (fun a b => a + h ≤ b) ∧ ∀ a ∈ ts, lo ≤ a ∧ a + h ≤ hi

theorem spacedWithin_nil (h lo hi : Nat) : SpacedWithin h lo hi [] := ⟨.nil, nofun⟩

section
variable {h lo hi : Nat} {ts : List Nat}

theorem SpacedWithin.from_earlier {lo' : Nat} (hts : SpacedWithin h lo hi ts) (hlo : lo' ≤ lo) :
    SpacedWithin h lo' hi ts :=
  ⟨hts.1, fun a ha => ⟨hlo.trans (hts.2 a ha).1, (hts.2 a ha).2⟩⟩

theorem SpacedWithin.cons (hts : SpacedWithin h (lo + h) hi ts) (hhi : lo + h ≤ hi) :
    SpacedWithin h lo hi (lo :: ts) := by
  refine ⟨List.pairwise_cons.2 ⟨fun a ha => (hts.2 a ha).1, hts.1⟩, List.forall_mem_cons.2 ⟨⟨le_rfl, hhi⟩, ?_⟩⟩
  exact (hts.from_earlier (Nat.le_add_right lo h)).2

end

/-- The line events of a disciplined and timed trace lie a half period apart, from its start to a half period before
its end (R60). -/
theorem spacedWithin_lineTimes {h : Nat} (t : Nat) (tr : List Event) (hd : disciplined h tr = true)
    (ht : timed t tr = true) : SpacedWithin h t (t + elapsed tr) (lineTimes tr) := by
  induction tr using disciplined.induct generalizing t with
  | case1 => exact spacedWithin_nil _ _ _
  | case2 n t' rest ih =>
    simp only [disciplined, timed, Bool.and_eq_true] at hd ht
    rw [elapsed, ← Nat.add_assoc]
    exact (ih _ hd ht.2).from_earlier (Nat.le_add_right t n)
  | case3 l v t1 n t2 rest ih | case4 b t1 n t2 rest ih =>
    simp only [disciplined, timed, Bool.and_eq_true, beq_iff_eq] at hd ht
    obtain ⟨⟨rfl, -⟩, hd⟩ := hd
    obtain ⟨rfl, -, ht⟩ := ht
    simp only [elapsed, lineTimes, ← Nat.add_assoc]
    exact (ih _ hd ht).cons (Nat.le_add_right _ _)
  | case5 l v t1 rest hne | case6 b t1 rest hne =>
    rw [disciplined] at hd
    · cases hd
    · exact hne

/-- Settles O49: the invariant holds the discipline and the times of the whole trace, and every step keeps it. -/
theorem lineEventsAreAHalfPeriodApart : Obligations.LineEventsAreAHalfPeriodApart := by
  have spaced {s : State} (hinv : TraceInv s) : SpacedWithin s.params.halfUs 0 s.time (lineTimes s.trace) := by
    rw [hinv.clockTime, ← Nat.zero_add (elapsed s.trace)]
    exact spacedWithin_lineTimes 0 s.trace hinv.delays hinv.stamps
  intro s hinv
  refine ⟨(spaced hinv).1, fun a ha => ((spaced hinv).2 a ha).2, fun t h => ?_⟩
  rw [← (stepOnlyAddsToTheTrace s t h).1]
  exact (spaced (stepKeepsTraceInv s t hinv h)).1

end Sys2Proof.Machine
end

section
/-! PROOFS. The scan for START and STOP: what a command leaves of it, so between commands the engine is at rest, and
when the bus is claimed (R47). -/

namespace Sys2Proof.Machine

theorem claimScan_append_pacedFrom (s : State) (acts : List Act) :
    claimScan (s.trace ++ pacedFrom s acts) = acts.foldl claimAct (claimScan s.trace) :=
  claimScan_append_paced _ _ _ _

section
variable (s : State)

/-- START begins a claim from any state. -/
theorem claimScan_start : claimScan (execNext .start s).trace = ⟨some (.clock, false), true⟩ :=
  (claimScan_append_pacedFrom s _).trans (claim_startActs _)

/-- STOP ends a claim from any state. -/
theorem claimScan_stop : claimScan (execNext .stop s).trace = ⟨some (.data, true), false⟩ :=
  (claimScan_append_pacedFrom s _).trans (claim_stopActs _)

/-- A WRITE ends the claim with its STOP where all its bytes are acknowledged. -/
theorem claimScan_write_acked {x v : Byte} (h : DeviceAcks s x v) :
    claimScan (execNext (.write x v) s).trace = ⟨some (.data, true), false⟩ := by
  rw [execNext_write_acked_trace h, ← List.append_assoc, claimScan_append_wait, claimScan_append_pacedFrom,
    claim_writeDoneActs]

/-- A WRITE leaves the claim of its START standing where a byte is refused. -/
theorem claimScan_write_nacked {x v : Byte} {k : Nat} (h : DeviceNacksAt s x v k) :
    claimScan (execNext (.write x v) s).trace = ⟨some (.clock, false), true⟩ := by
  rw [execNext_write_nacked_trace h, claimScan_append_pacedFrom, claim_writeAbortActs]

/-- DELAY and READACK are nothing to the scan. -/
theorem claimScan_delay_readack {i : Instr} (hi : i = .delay ∨ i = .readack) :
    claimScan (execNext i s).trace = claimScan s.trace := by
  obtain rfl | rfl := hi
  · exact claimScan_append_wait _ _ _
  · obtain ⟨f, k, rs, e⟩ := readackNext_frame s
    rw [execNext, e]

variable {s} in
/-- From rest, TX, RX and SENDACK neither begin nor end a claim, and end with CLOCK driven low. -/
theorem claimScan_bits {i : Instr} (hi : (∃ v, i = .tx v) ∨ i = .rx ∨ ∃ a, i = .sendack a) (hs : AtRest s) :
    claimScan (execNext i s).trace = ⟨some (.clock, false), (claimScan s.trace).started⟩ := by
  obtain ⟨hclock, hdata⟩ := hs
  obtain ⟨v, rfl⟩ | rfl | ⟨a, rfl⟩ := hi
  · exact (claimScan_append_pacedFrom s _).trans (claim_txActs _ _ _ hclock)
  · exact (claimScan_append_pacedFrom s _).trans (claim_rxActs _ _ hdata)
  · exact (claimScan_append_pacedFrom s _).trans (claim_sendackActs _ _ hclock)

end

/-- Every command ends with CLOCK driven low or DATA released, or drives no line. -/
theorem atRest_execNext (i : Instr) {s : State} (hs : AtRest s) : AtRest (execNext i s) := by
  have drove {t : State} {l : Line × Bit} {b : Bool} (h : claimScan t.trace = ⟨some l, b⟩)
      (hl : l ≠ (.clock, true) ∧ l ≠ (.data, false)) : AtRest t := by simpa [AtRest, h] using hl
  cases i with
  | delay => rwa [AtRest, claimScan_delay_readack s (.inl rfl)]
  | readack => rwa [AtRest, claimScan_delay_readack s (.inr rfl)]
  | start => exact drove (claimScan_start s) (by decide)
  | stop => exact drove (claimScan_stop s) (by decide)
  | tx v => exact drove (claimScan_bits (.inl ⟨v, rfl⟩) hs) (by decide)
  | rx => exact drove (claimScan_bits (.inr (.inl rfl)) hs) (by decide)
  | sendack a => exact drove (claimScan_bits (.inr (.inr ⟨a, rfl⟩)) hs) (by decide)
  | write x v =>
    rcases acks_or_nacks x v s with h | ⟨k, h⟩
    · exact drove (claimScan_write_acked s h) (by decide)
    · exact drove (claimScan_write_nacked s h) (by decide)

/-- Settles O47: a step that executes no command leaves the trace. -/
theorem stepKeepsAtRest : Obligations.StepKeepsAtRest := by
  intro s t hrest h
  obtain ⟨-, ⟨-, rfl⟩ | ⟨w, i, -, -, rfl⟩ | ⟨w, c, -, -, rfl⟩⟩ := step_next_cases h
  · exact hrest
  · exact atRest_execNext i hrest
  · exact hrest

/-- Settles O48: a loaded reset state has an empty trace, no flag, no response and no fault. -/
theorem resetMeetsTheInvariants : Obligations.ResetMeetsTheInvariants :=
  fun _ ws => ⟨⟨rfl, rfl, rfl, rfl, rfl, rfl, nofun⟩, nofun, ⟨rfl, Nat.zero_le ws.length, nofun⟩, nofun, nofun⟩

/-- Settles O53: a claim follows the scan of the trace and the level of CLOCK. -/
theorem claimedFromStartToStop : Obligations.ClaimedFromStartToStop := by
  have claimed_iff (s : State) : claimed s = true ↔ s.scl = false ∧ started s.trace = true := by simp [claimed]
  have unclaimed {s : State} (h : started s.trace = false) : claimed s = false ∧ started s.trace = false :=
    ⟨by simp [claimed, h], h⟩
  refine ⟨claimed_iff, fun p => (unclaimed rfl).1, fun s => (unclaimed rfl).1, fun s t h => ?start, fun s t h => ?stop,
    fun x v s t h => ?write, fun i s t hrest hi h => ?other⟩ <;> obtain ⟨-, rfl⟩ := exec_next_iff.1 h
  case start => exact (claimed_iff _).2 ⟨rfl, congrArg ClaimScan.started (claimScan_start s)⟩
  case stop => exact unclaimed (congrArg ClaimScan.started (claimScan_stop s))
  case write =>
    rcases acks_or_nacks x v s with ha | ⟨k, hn⟩
    · refine ⟨fun hr => ?_, fun _ => unclaimed (congrArg ClaimScan.started (claimScan_write_acked s ha))⟩
      simp [execNext_write_acked x v s ha] at hr
    · refine ⟨fun _ => (claimed_iff _).2 ⟨?_, congrArg ClaimScan.started (claimScan_write_nacked s hn)⟩, fun hr => ?_⟩
      · simp [execNext_write_nacked x v s hn]
      · simp [execNext_write_nacked x v s hn] at hr
  case other =>
    have keeps {l : Option (Line × Bit)} (h : claimScan (execNext i s).trace = ⟨l, started s.trace⟩) :
        started (execNext i s).trace = started s.trace := by rw [started, h]
    obtain hd | htx | hrx | hsend | hread := hi
    · exact keeps (claimScan_delay_readack s (.inl hd))
    · exact keeps (claimScan_bits (.inl htx) hrest)
    · exact keeps (claimScan_bits (.inr (.inl hrx)) hrest)
    · exact keeps (claimScan_bits (.inr (.inr hsend)) hrest)
    · exact keeps (claimScan_delay_readack s (.inr hread))

end Sys2Proof.Machine
end

section
/-! PROOFS. What the bus monitor reads of START, STOP, TX, SENDACK, and RX with a SENDACK after it (R47, R48). -/

namespace Sys2Proof.Machine

/-- A command on the wire is what the monitor reads of its waveform. -/
theorem wire_of_acts {i : Instr} {s : State} {toks : List Token} (acts : List Act) (hs : Live s)
    (htrace : (execNext i s).trace = s.trace ++ pacedFrom s acts)
    (hread : monitorEnd (acts.foldl monitorAct (monitorInit s.scl s.sda)) = toks) : Wire i s toks :=
  ⟨execNext i s, pacedFrom s acts, exec_live i hs, htrace, (monitor_pacedFrom s acts _ _).trans hread⟩

/-! ## START and STOP -/

/-- The conditions that the drives of a STOP make from the line levels `c` and `d`: a STOP condition, and from an idle
bus a START condition before it (R68). -/
def stopTokens (c d : Bit) : List Token := if c = true ∧ d = true then [.start, .stop] else [.stop]

/-- STOP on the wire, from any line levels. -/
theorem wire_stop {s : State} (hs : Live s) : Wire .stop s (stopTokens s.scl s.sda) := by
  refine wire_of_acts stopActs hs rfl ?_
  cases s.scl <;> cases s.sda <;> rfl

/-- Settles O52: the reset state of an idle bus has both lines high. -/
theorem startAndStopOnTheWire : Obligations.StartAndStopOnTheWire := by
  refine ⟨fun s hs => ⟨wire_start hs, wire_stop hs⟩, fun p d hidle => ?_⟩
  obtain ⟨hscl, hsda, -⟩ := hidle
  have htok : startTokens (State.resetWith p).scl (State.resetWith p).sda = [.start] := if_pos ⟨hscl, hsda⟩
  exact ⟨Bool.and_eq_true_iff.2 ⟨hscl, hsda⟩, htok ▸ wire_start rfl⟩

/-- Settles O59: a refused WRITE leaves CLOCK low, from where STOP makes its condition alone; STOP then leaves both
lines high, from where START makes its condition. -/
theorem stopRecoversAnAbortedWrite : Obligations.StopRecoversAnAbortedWrite := by
  intro i v s t h hr
  obtain ⟨hs, rfl⟩ := exec_next_iff.1 h
  obtain ⟨k, hk⟩ := deviceNacksAt_of_resp hr
  have hscl : (execNext (.write i v) s).scl = false := by simp [execNext_write_nacked i v s hk]
  have hlive : Live (execNext (.write i v) s) := execNext_live (by simp) hs
  have hstopped : Live (execNext .stop (execNext (.write i v) s)) := execNext_live (by simp) hlive
  have htok : stopTokens (execNext (.write i v) s).scl (execNext (.write i v) s).sda = [.stop] := by
    simp [stopTokens, hscl]
  exact ⟨htok ▸ wire_stop hlive, _, exec_live _ hlive, rfl, wire_start hstopped⟩

/-! ## TX -/

/-- Settles O54: from CLOCK low, TX's waveform is one frame. -/
theorem txIsOneFrameOnTheWire : Obligations.TxIsOneFrameOnTheWire := by
  intro v s hs hscl
  refine wire_of_acts (txActs v (answerAfter s (txLeadActs v))) hs rfl ?_
  rw [hscl, show monitorInit false s.sda = lowState s.sda [] [] from rfl, foldl_txActs]
  rfl

/-- A data bit sent from CLOCK high gets no slot: its drive makes a condition where DATA changes, CLOCK is already up,
and its fall finds no open slot. -/
def highBitTokens (d b : Bit) : List Token :=
  if d = true ∧ b = false then [.start] else if d = false ∧ b = true then [.stop] else []

theorem foldl_txBitActs_high (d b : Bit) :
    (txBitActs b).foldl monitorAct (monitorInit true d) = lowState b [] (highBitTokens d b) := by
  cases d <;> cases b <;> rfl

/-- Fewer than eight bits sent from CLOCK low are as many bit slots. -/
theorem foldl_txBits (bits bs : List Bit) (d : Bit) (out : List Token) (h : bs.length + bits.length ≤ 8) :
    (bits.flatMap txBitActs).foldl monitorAct (lowState d bs out) =
      lowState (bits.getLastD d) (bs ++ bits) out := by
  induction bits generalizing bs d with
  | nil => simp
  | cons b bits ih =>
    rw [List.length_cons] at h
    rw [List.flatMap_cons, List.foldl_append, foldl_txBitActs _ _ _ _ (by omega), ih _ _ (by simp; omega),
      List.getLastD_cons, List.append_assoc, List.singleton_append]

/-- The acknowledge pulse of a TX whose sample reads `b` (R69). -/
def ackPulseActs (b : Bit) : List Act := [.drive .data true, .drive .clock true, .sample b, .drive .clock false]

/-- A TX is its eight data bits, the first one apart, and the acknowledge pulse. -/
theorem txActs_eq (v : Byte) (b : Bit) :
    txActs v b = txBitActs (bitAt v 7) ++ ((bitsMsb v).tail.flatMap txBitActs ++ ackPulseActs b) := rfl

/-- The acknowledge pulse of a TX after fewer than eight bits is one more bit slot. -/
theorem foldl_ackPulseActs (b d : Bit) (bs : List Bit) (out : List Token) (h : bs.length < 8) :
    (ackPulseActs b).foldl monitorAct (lowState d bs out) = lowState true (bs ++ [b]) out := by
  have h8 : bs.length ≠ 8 := by omega
  simp [ackPulseActs, monitorAct, monitorData, monitorClock, monitorSample, monitorFall, monitorBit, startCondition,
    stopCondition, h8]

/-- Settles O55: bit 7 is sent from CLOCK high, the other seven and the acknowledge pulse from CLOCK low. -/
theorem txFromClockHighLosesBitSeven : Obligations.TxFromClockHighLosesBitSeven := by
  intro v s hs hscl
  refine wire_of_acts (txActs v (answerAfter s (txLeadActs v))) hs rfl ?_
  rw [hscl, txActs_eq, List.foldl_append, foldl_txBitActs_high, List.foldl_append,
    foldl_txBits _ _ _ _ (by simp [bitsMsb]), foldl_ackPulseActs _ _ _ _ (by simp [bitsMsb])]
  rfl

/-! ## SENDACK, and RX before it -/

/-- Settles O56: SENDACK is one data bit, of the level `ackLevel`. -/
theorem sendackOnTheWire : Obligations.SendackOnTheWire := by
  intro a s hs
  refine wire_of_acts (sendackActs a) hs rfl ?_
  rw [← ackLevel_eq_ite, sendackActs]
  cases hscl : s.scl with
  | false =>
    rw [show monitorInit false s.sda = lowState s.sda [] [] from rfl, foldl_txBitActs _ _ _ _ (by simp)]
    rfl
  | true =>
    rw [foldl_txBitActs_high]
    cases s.sda <;> by_cases ha : a = 0 <;> simp [highBitTokens, ackLevel, ha, monitorEnd]

/-- Up to eight bits received with DATA released are as many bit slots, whatever the level of CLOCK before: the first
fall of CLOCK finds no open slot, and each later one closes the slot of the bit before it. -/
theorem foldl_rxActs (c : Bit) (bs : List Bit) (h : bs.length ≤ 8) :
    (rxActs bs).foldl monitorAct (monitorInit c true) = lowState true bs [] := by
  induction bs using List.reverseRecOn with
  | nil => cases c <;> rfl
  | append_singleton bs b ih =>
    have hacts : rxActs (bs ++ [b]) =
        rxActs bs ++ ([.drive .clock true, .sample b, .drive .clock false] : List Act) := by simp [rxActs, rxBitActs]
    rw [List.length_append, List.length_singleton] at h
    have h8 : bs.length ≠ 8 := by omega
    rw [hacts, List.foldl_append, ih (by omega)]
    simp [monitorAct, monitorClock, monitorSample, monitorFall, monitorBit, h8]

/-- A ninth bit closes the frame of the eight before it. -/
theorem foldl_txBitActs_ninth (b d : Bit) (bs : List Bit) (out : List Token) (h : bs.length = 8) :
    (txBitActs b).foldl monitorAct (lowState d bs out) = lowState b [] (out ++ [.byte (byteOfBits bs) b]) := by
  cases b <;> cases d <;>
    simp [txBitActs, monitorAct, monitorData, monitorClock, monitorFall, monitorBit, startCondition, stopCondition, h]

theorem execNext_rx_resp (s : State) :
    (execNext .rx s).resp = s.resp ++ [.byte (byteOfBits (rxRead s))] := by
  simp only [execNext, respond_resp, expireAck_resp, perform_resp]

/-- Settles O57: RX leaves its eight bits in the monitor, and SENDACK's bit is the ninth. -/
theorem rxAndSendackAreOneFrame : Obligations.RxAndSendackAreOneFrame := by
  intro a s hs hsda
  have hlive : Live (execNext .rx s) := execNext_live (by simp) hs
  refine ⟨_, _, byteOfBits (rxRead s), pacedFrom s (rxActs (rxRead s) ++ sendackActs a), exec_live _ hs,
    exec_live (.sendack a) hlive, execNext_rx_resp s, ?trace, ?frame⟩
  case trace => simp [execNext, pacedFrom, paced_append]
  case frame =>
    rw [← ackLevel_eq_ite, monitor_pacedFrom, hsda, List.foldl_append, foldl_rxActs _ _ (length_rxRead s).le,
      sendackActs, foldl_txBitActs_ninth _ _ _ _ (length_rxRead s)]
    rfl

end Sys2Proof.Machine
end

section
/-! PROOFS. Samples that answer the script of the parameters, and the byte that comes back on a replayed line (L1.1). -/

namespace Sys2Proof.Machine

/-- A waveform adds its samples to those of the trace. -/
theorem sampleCount_append_pacedFrom (s : State) (acts : List Act) :
    sampleCount (s.trace ++ pacedFrom s acts) =
      sampleCount s.trace + acts.countP fun a => isSample (eventAt 0 a) := by
  rw [sampleCount, List.countP_append, pacedFrom, lineKind_isSample.countP_paced, sampleCount]

/-- A sample taken where the rest of the script begins with `b` reads `b`. -/
theorem answerAfter_of_drop {s : State} {acts : List Act} {n : Nat} {b : Bit} {rest : List Bit}
    (hn : acts.countP (fun a => isSample (eventAt 0 a)) = n)
    (hs : s.params.script.drop (sampleCount s.trace + n) = b :: rest) : answerAfter s acts = b := by
  have hget : s.params.script[sampleCount s.trace + n]? = some b := by
    rw [← Nat.add_zero (sampleCount s.trace + n), ← List.getElem?_drop, hs]
    rfl
  simp only [answerAfter, oracle, sampleCount_append_pacedFrom, hn, hget]

theorem countP_isSample_txLeadActs (v : Byte) : (txLeadActs v).countP (fun a => isSample (eventAt 0 a)) = 0 := rfl

theorem countP_isSample_txActs (v : Byte) (b : Bit) :
    (txActs v b).countP (fun a => isSample (eventAt 0 a)) = 1 := rfl

theorem countP_isSample_rxLeadActs (bs : List Bit) :
    (rxLeadActs bs).countP (fun a => isSample (eventAt 0 a)) = bs.length := by
  rw [rxLeadActs, List.countP_append, List.countP_flatMap]
  simp [rxBitActs, eventAt, isSample, Function.comp_def]

/-- RX reads the bits at which the rest of the script begins. -/
theorem rxAnswers_of_drop {s : State} {rest : List Bit} (more pre : List Bit)
    (hs : s.params.script.drop (sampleCount s.trace + pre.length) = more ++ rest) :
    rxAnswers s more.length pre = pre ++ more := by
  induction more generalizing pre with
  | nil => simp [rxAnswers]
  | cons b more ih =>
    have hb : answerAfter s (rxLeadActs pre) = b := answerAfter_of_drop (countP_isSample_rxLeadActs pre) hs
    have hnext : s.params.script.drop (sampleCount s.trace + (pre ++ [b]).length) = more ++ rest := by
      rw [List.length_append, List.length_singleton, ← Nat.add_assoc, ← List.drop_drop, hs]
      rfl
    rw [List.length_cons, rxAnswers, hb, ih _ hnext, List.append_assoc]
    rfl

/-- Settles O60: TX takes the script's next answer and RX the eight after it, which spell the byte sent. -/
theorem roundTripOnAReplayedLine : Obligations.RoundTripOnAReplayedLine := by
  intro v s rest hs hscript
  have hack : answerAfter s (txLeadActs v) = false := answerAfter_of_drop (countP_isSample_txLeadActs v) hscript
  have hlive : Live (execNext (.tx v) s) := execNext_live (by simp) hs
  have hcount : sampleCount (execNext (.tx v) s).trace = sampleCount s.trace + 1 :=
    (sampleCount_append_pacedFrom s _).trans (by rw [countP_isSample_txActs])
  have hread : rxRead (execNext (.tx v) s) = bitsMsb v := by
    refine rxAnswers_of_drop (bitsMsb v) [] (rest := rest) ?_
    rw [execNext_params, hcount, List.length_nil, Nat.add_zero, ← List.drop_drop, hscript]
    rfl
  refine ⟨_, _, exec_live _ hs, exec_live .rx hlive, ?ack, rfl, ?resp⟩
  case ack => simp [execNext, hack, ackOf]
  case resp =>
    rw [execNext_rx_resp, hread, byteOfBits_bitsMsb]
    simp [execNext]

end Sys2Proof.Machine
end

section
/-! PROOFS. Whole runs under the premises NoFault and DeviceAcks (R97). -/

namespace Sys2Proof.Machine

/-! ## NoFault -/

/-- The premise passes on to the state after a step. -/
theorem RunNoFault.tail {s t : State} (h : RunNoFault s) (hstep : step s = .next t) : RunNoFault t :=
  fun n u hu => h (n + 1) u ((runFor_succ hstep n).trans hu)

/-- Under NoFault a program that has not ended goes on by one command and one response. -/
theorem RunNoFault.advance {s : State} (h : RunNoFault s) (hpc : s.pc < s.program.length) :
    ∃ t, step s = .next t ∧ t.pc = s.pc + 1 ∧ t.resp.length = s.resp.length + 1 ∧ t.program = s.program := by
  have hw : s.program[s.pc]? = some s.program[s.pc] := List.getElem?_eq_getElem hpc
  obtain ⟨t, ht⟩ := issue_answers s.program[s.pc] (h 0 s rfl)
  have hstep : step s = .next t := (step_eq_issue (h 0 s rfl) hw).trans ht
  have hlive : t.fault = none := h 1 t (runFor_succ hstep 0)
  obtain ⟨hprog, ⟨-, hnext, r, hresp⟩ | ⟨hf, -⟩⟩ := hostProgramAdvances s t _ hw hstep
  · exact ⟨t, hstep, hnext, by simp [hresp], hprog⟩
  · exact absurd hlive hf

theorem RunNoFault.reaches {s : State} (h : RunNoFault s) (n : Nat) (hn : s.pc + n ≤ s.program.length) :
    ∃ t, runFor n s = some t ∧ t.pc = s.pc + n ∧ t.resp.length = s.resp.length + n ∧ t.program = s.program := by
  induction n generalizing s with
  | zero => exact ⟨s, rfl, rfl, rfl, rfl⟩
  | succ n ih =>
    obtain ⟨t, hstep, hpc, hresp, hprog⟩ := h.advance (by omega)
    obtain ⟨u, hu, hupc, huresp, huprog⟩ := ih (h.tail hstep) (by rw [hpc, hprog]; omega)
    exact ⟨u, (runFor_succ hstep n).trans hu, by omega, by omega, huprog.trans hprog⟩

/-! ## DeviceAcks -/

/-- No byte has been refused, as far as the flag and the responses tell. -/
def NoneRefused (s : State) : Prop := s.ack ≠ some false ∧ .flag false ∉ s.resp

/-- A trace that ends with a refused byte is not acknowledged throughout. -/
theorem not_allAcked_refused (s : State) (acts : List Act) (v : Byte) :
    allAcked (s.trace ++ pacedFrom s (acts ++ txActs v true)) ≠ true := by
  intro h
  have hk := nackAt_refused s.trace s.params.halfUs s.time acts v
  exact absurd ((nackAt_of_allAcked h _).symm.trans hk) (by decide)

section
variable {s : State}

/-- In an acknowledged trace the sample of a TX reads 0. -/
theorem answerAfter_of_allAcked {v : Byte} (h : allAcked (execNext (.tx v) s).trace = true) :
    answerAfter s (txLeadActs v) = false := by
  by_contra hb
  rw [Bool.not_eq_false] at hb
  simp only [execNext, respond_trace, setAck_trace, perform_trace, hb] at h
  exact not_allAcked_refused s [] v h

/-- In an acknowledged trace a WRITE met its three acknowledges. -/
theorem deviceAcks_of_allAcked {x v : Byte} (h : allAcked (execNext (.write x v) s).trace = true) :
    DeviceAcks s x v := by
  rcases acks_or_nacks x v s with ha | ⟨k, hn⟩
  · exact ha
  · rw [execNext_write_nacked_trace hn] at h
    exact absurd h (not_allAcked_refused s _ _)

/-- A command that leaves an acknowledged trace shows no refusal. -/
theorem noneRefused_execNext (i : Instr) (h : allAcked (execNext i s).trace = true) (hs : NoneRefused s) :
    NoneRefused (execNext i s) := by
  obtain ⟨hack, hresp⟩ := hs
  cases i with
  | delay | start | stop | rx | sendack => exact ⟨by simpa [execNext] using hack, by simp [execNext, hresp]⟩
  | tx v => exact ⟨by simp [execNext, answerAfter_of_allAcked h, ackOf], by simp [execNext, hresp]⟩
  | readack =>
    rcases readackNext_cases s with ⟨b, hb, -, e⟩ | ⟨c, -, e⟩ <;> rw [execNext, e]
    · exact ⟨hack, by cases b <;> simp_all⟩
    · exact ⟨hack, hresp⟩
  | write x v =>
    rw [execNext_write_acked x v s (deviceAcks_of_allAcked h)]
    exact ⟨by simp [ackOf], by simp [hresp]⟩

end

theorem noneRefused_step {s t : State} (hstep : step s = .next t) (h : allAcked t.trace = true)
    (hs : NoneRefused s) : NoneRefused t := by
  obtain ⟨-, ⟨-, rfl⟩ | ⟨w, i, -, -, rfl⟩ | ⟨w, c, -, -, rfl⟩⟩ := step_next_cases hstep
  · exact hs
  · exact noneRefused_execNext i h hs
  · exact hs

/-- Settles O51: both premises pass along the run; a step's acknowledge samples stand in the trace of the state after
it. -/
theorem premisesOfARun : Obligations.PremisesOfARun := by
  refine ⟨fun s n h hn => h.reaches n hn, fun s h hack hresp n t ht => ?_⟩
  have hnone : NoneRefused t :=
    runFor_induction NoneRefused ⟨hack, hresp⟩
      (fun m a b hm ha hstep => noneRefused_step hstep (h (m + 1) b (runFor_step hm hstep)) ha) n t ht
  refine ⟨hnone.1, hnone.2, fun w hlive hw => ?_⟩
  have next {i : Instr} (hd : decode w = .command i) :
      step t = .next (execNext i t) ∧ allAcked (execNext i t).trace = true := by
    have hstep : step t = .next (execNext i t) := (step_eq_issue hlive hw).trans (issue_command hlive hd)
    exact ⟨hstep, h (n + 1) _ (runFor_step ht hstep)⟩
  refine ⟨fun v hd => ?tx, fun i v hd => ?write⟩ <;> obtain ⟨hstep, hacked⟩ := next hd
  case tx => exact ⟨_, hstep, by simp [execNext, answerAfter_of_allAcked hacked, ackOf]⟩
  case write =>
    have hdev := deviceAcks_of_allAcked hacked
    exact ⟨hdev, _, hstep, by simp [execNext_write_acked i v t hdev]⟩

end Sys2Proof.Machine
end
